-- ==== Sys2Proof/Word.lean ====
section
/-! DEFINITION. The word types of curve25519_scalar_clamp (spec/00_scope.md R6 to R8). -/

namespace Sys2Proof

/-- One byte: bits numbered 0 (least significant) to 7 (R7). -/
abbrev Byte := BitVec 8

/-- The contents of a length register: 16 bits (R50). -/
abbrev Half := BitVec 16

/-- One host-port data word, and one command word: 32 bits (R6, R80). -/
abbrev Word := BitVec 32

/-- A host-port byte address: 16 bits, an offset from `BASE_ADDR` (R60, R66). -/
abbrev Addr := BitVec 16

/-- A byte string of a fixed length `n`, byte 0 first (R8). -/
abbrev Bytes (n : Nat) := Vector Byte n

end Sys2Proof
end

