-- ==== Sys2Proof/Syntax.lean ====
section
/-! DEFINITION. The commands (spec/30_encoding.md R80 to R82) and the fields of a command word (R81). -/

namespace Sys2Proof

/-- The six commands of R82, one constructor per row of spec/opcode_table.json. Every operand but the sign bit of
ED_FROM_MONT is implicit (R85). -/
inductive Instr where
  /-- CLAMP (R102). -/
  | clamp
  /-- ENCODE_PUB (R106). -/
  | encodePub
  /-- DECODE_PUB (R108). -/
  | decodePub
  /-- ED_FROM_MONT with the sign bit `S`, bit 8 of the command word (R122). -/
  | edFromMont (s : Bool)
  /-- SIGN (R149). -/
  | sign
  /-- VERIFY (R169). -/
  | verify
deriving DecidableEq, Repr

/-- The fields of a command word (R81): OP in bits 7:0, S in bit 8, RES in bits 31:9. -/
structure Fields where
  op : BitVec 8
  s : BitVec 1
  res : BitVec 23
deriving DecidableEq, Repr

/-- The operation code of a command (R82). -/
def Instr.op : Instr → BitVec 8
  | .clamp => 0x01
  | .encodePub => 0x02
  | .decodePub => 0x03
  | .edFromMont _ => 0x04
  | .sign => 0x05
  | .verify => 0x06

/-- The sign-bit operand: used by ED_FROM_MONT alone, 0 for every other command (R81). -/
def Instr.signOperand : Instr → Bool
  | .clamp => false
  | .encodePub => false
  | .decodePub => false
  | .edFromMont s => s
  | .sign => false
  | .verify => false

/-- The field values of a command (R81, R82). -/
def Instr.fields (i : Instr) : Fields :=
  { op := i.op, s := BitVec.ofBool i.signOperand, res := 0 }

end Sys2Proof
end

