-- ==== Sys2Proof/WellFormed.lean ====
section
/-! DEFINITION. The checks on the fields of a command word (spec/30_encoding.md R81, R84, R86). Every term of `Instr`
passes them (Laws/PerInstr.lean): its one operand is one bit, used as it is. -/

namespace Sys2Proof

/-- OP is one of the six assigned codes 0x01 to 0x06 (R82, R84). -/
def Fields.opAssigned (f : Fields) : Bool := decide (1 ≤ f.op.toNat ∧ f.op.toNat ≤ 6)

/-- S is 0 unless OP is ED_FROM_MONT's (R81, R84). -/
def Fields.signAllowed (f : Fields) : Bool := f.s == 0 || f.op == 0x04

/-- RES is 0 (R81, R84). -/
def Fields.resClear (f : Fields) : Bool := f.res == 0

/-- The fields of a legal command word (R84). -/
def Fields.wellFormed (f : Fields) : Bool := f.opAssigned && f.signAllowed && f.resClear

/-- An instruction is well formed when its fields are those of a legal command word. -/
def Instr.wellFormed (i : Instr) : Bool := i.fields.wellFormed

end Sys2Proof
end

