-- ==== Sys2Proof/Decode.lean ====
section
/-! DEFINITION. Decoding of command words (spec/30_encoding.md R82 to R84) by the table of masks and matches, and the
encoder, written from the field layout of R81. -/

namespace Sys2Proof

/-- One row of the opcode map (R82): "A word w selects a row when (w & mask) = match". -/
structure OpcodeRow where
  word : Word
  mask : Word
  instr : Word → Instr

/-- `w[8]`, the sign-bit operand of a command word (R81, R83). -/
def signBitOf (w : Word) : Bool := w.getLsbD 8

/-- The opcode map (R82). -/
def opcodeRows : List OpcodeRow :=
  [ ⟨0x00000001, 0xFFFFFFFF, fun _ => .clamp⟩,
    ⟨0x00000002, 0xFFFFFFFF, fun _ => .encodePub⟩,
    ⟨0x00000003, 0xFFFFFFFF, fun _ => .decodePub⟩,
    ⟨0x00000004, 0xFFFFFEFF, fun w => .edFromMont (signBitOf w)⟩,
    ⟨0x00000005, 0xFFFFFFFF, fun _ => .sign⟩,
    ⟨0x00000006, 0xFFFFFFFF, fun _ => .verify⟩ ]

/-- R82's selection of a row. -/
def OpcodeRow.selects (r : OpcodeRow) (w : Word) : Bool := w &&& r.mask == r.word

/-- The fields of a command word (R81). -/
def fieldsOf (w : Word) : Fields :=
  { op := w.extractLsb' 0 8, s := w.extractLsb' 8 1, res := w.extractLsb' 9 23 }

/-- Why a command word is illegal (R84). The block reports IllegalCommand for each alike (R183); the names are the
model's, in the order it looks (log 22). -/
inductive Illegal where
  /-- OP is 0x00 or in 0x07 to 0xFF. -/
  | unassignedOp
  /-- S = 1 with an OP other than 0x04. -/
  | straySign
  /-- A RES bit is not 0. -/
  | reservedBits
deriving DecidableEq, Repr

/-- The name under which an illegal word is rejected (log 22). -/
def illegalReason (w : Word) : Illegal :=
  if !(fieldsOf w).opAssigned then .unassignedOp
  else if !(fieldsOf w).signAllowed then .straySign
  else .reservedBits

/-- Decoding, total on all 2^32 words (R83): the selected row's command, or the reason of R84. -/
def decode (w : Word) : Except Illegal Instr :=
  match opcodeRows.find? (fun r => r.selects w) with
  | some r => .ok (r.instr w)
  | none => .error (illegalReason w)

/-- A command word put together from its fields (R81). -/
def Fields.toWord (f : Fields) : Word := f.res ++ f.s ++ f.op

/-- The command word of an instruction (R81, R82). -/
def encode (i : Instr) : Word := i.fields.toWord

/-- The word whose four bytes lie little-endian at rising addresses (20_memory.md R62); a missing byte is 0. -/
def wordOfBytes (bs : List Byte) : Word := bs.getD 3 0 ++ bs.getD 2 0 ++ bs.getD 1 0 ++ bs.getD 0 0

/-- The first four bytes of an instruction whose lower `nbits` bits are those of `w` and whose other bits are 0, as the
host port stores them (R62, R80). -/
def tableBytes (nbits w : Nat) : List Byte :=
  (List.range 4).map (fun k => BitVec.ofNat 8 ((w % 2 ^ nbits) >>> (8 * k)))

/-- What the decoder reads from a row of the opcode table given as the number `w` of `nbits` bits. -/
def decodeTableWord (nbits w : Nat) : Option Instr :=
  match decode (wordOfBytes (tableBytes nbits w)) with
  | .ok i => some i
  | .error _ => none

end Sys2Proof
end

