-- ==== Sys2Proof/Config.lean ====
section
/-! DEFINITION. The configuration (spec/00_scope.md R6, R27): what an implementation fixes and the spec leaves open. It is
no state (R30). The machine runs with the parameters of the opaque `Parameters.impl`, so a theorem about it holds for
every value of every parameter. -/

namespace Sys2Proof

/-- The group order `ℓ` (R21). The spec marks the value as general knowledge, not the source's (log 4). -/
abbrev groupOrder : Nat := 0x1000000000000000000000000000000014DEF9DEA2F79CD65812631A5CF5D3ED

/-- An integer in `[0, ℓ)`, the range of every reduction (R22, R26). -/
abbrev Scalar := Fin groupOrder

/-- An Edwards point `P = (x, y)` as R23 writes it. The block never shows one to the host (R48, log 4). -/
structure Point where
  x : Nat
  y : Nat
deriving DecidableEq, Repr, Inhabited

/-- The ten external primitive functions (R20 to R27). Their types fix the widths of their results and reduction into
`[0, ℓ)`. The equations of the source hold of the record the machine runs with (`Library.toPrim`) and are no part of this
type, so that a record can also be given by methods of its own (log 21). -/
structure Prim where
  /-- `SHA512(B)`, 64 bytes (R20). -/
  sha512 : List Byte → Bytes 64
  /-- `ScalarReduce(B)` for a 32-byte `B` (R22). -/
  scalarReduce : Bytes 32 → Scalar
  /-- `ScalarReduceWide(D)` for a 64-byte `D` (R22). -/
  scalarReduceWide : Bytes 64 → Scalar
  /-- `BaseMul(k)`, `k` any non-negative integer (R23). -/
  baseMul : Nat → Point
  /-- `Compress(P)`, 32 bytes (R23). -/
  compress : Point → Bytes 32
  /-- `Neg(P)` (R23). -/
  neg : Point → Point
  /-- `Add(P, Q)` (R23). -/
  add : Point → Point → Point
  /-- `MontToEd(u, sign)` (R24). -/
  montToEd : Bytes 32 → Bool → Option Point
  /-- `DoubleScalarVartime(s, h, A)` (R25). -/
  doubleScalarVartime : Scalar → Scalar → Point → Point
  /-- `ScalarMulAdd(r, h, a)` (R26). -/
  scalarMulAdd : Scalar → Scalar → Nat → Scalar

/-- What the source leaves to the primitive library (R20 to R26). The other functions of `Prim` follow from these by the
equations of R22, R23, R25 and R26 (log 21). -/
structure Library where
  /-- `SHA512(B)`, 64 bytes (R20). -/
  sha512 : List Byte → Bytes 64
  /-- The integer that `ScalarReduceWide` reduces. The source says that the digest is "reduced mod the group order"; that
  the digest is read little-endian is general knowledge (R9, R22), and not assumed. -/
  digestNat : Bytes 64 → Nat
  /-- The Edwards base point `B` (R21). -/
  base : Point
  /-- The sum of no points: `0·P`. -/
  zero : Point
  /-- `Compress(P)`, 32 bytes (R23). -/
  compress : Point → Bytes 32
  /-- `Neg(P)` (R23). -/
  neg : Point → Point
  /-- `Add(P, Q)` (R23). -/
  add : Point → Point → Point
  /-- `MontToEd(u, sign)` (R24). -/
  montToEd : Bytes 32 → Bool → Option Point
deriving Inhabited

/-- `NONCE_KEY_FORM` (R6, R144): which 32 bytes of the clamped key the nonce hash of SIGN consumes. -/
inductive NonceKeyForm where
  | clamped
  | reduced
deriving DecidableEq, Repr, Inhabited

/-- `X0_SIGN1` (R6, R24): what `MontToEd` returns when the recovered x is 0 and the requested sign bit is 1. -/
inductive X0Sign1 where
  | accept
  | reject
deriving DecidableEq, Repr, Inhabited

/-- The parameters of R6 that a command or the port reads. `BASE_ADDR` is not among them: every address is an offset from it
(R66, log 10). `LATENCY` is not modelled as a number (R218, log 1). -/
structure Config where
  /-- `MSG_MAX` as a number of 32-bit words, less one, so that every value is legal (log 3). -/
  msgWords : Fin 0x3C00
  nonceKeyForm : NonceKeyForm
  /-- Read by the reference record of primitives only (R24, log 20). -/
  x0Sign1 : X0Sign1
  prim : Prim

/-- `MSG_MAX`: a multiple of 4 with `4 <= MSG_MAX <= 0xF000` (R6). -/
def Config.msgMax (c : Config) : Nat := 4 * (c.msgWords.val + 1)

/-- What is open of one implementation: the values of `Config`, its primitives given by the library alone (log 3). -/
structure Parameters where
  msgWords : Fin 0x3C00
  nonceKeyForm : NonceKeyForm
  x0Sign1 : X0Sign1
  library : Library
deriving Inhabited

/-- The parameters of the implementation at hand: OPEN (R6), so a constant without a body (log 3). -/
opaque Parameters.impl : Parameters

end Sys2Proof
end

