-- ==== Sys2Proof/Machine/State.lean ====
section
/-! DEFINITION. The architectural state (spec/10_state.md R30 to R51), the events that move it, the reasons a step can
stop, and the state after reset (R49). -/

namespace Sys2Proof.Machine

/-- The bytes of the six buffers, as (address, byte) pairs over the register space (spec/20_memory.md R60, R63). An
unlisted address reads 0x00, the reset contents of every buffer (R49, log 12). -/
abbrev Memory := List Host.Cell

/-- The canonical form of a memory: addresses strictly rising, and no listed byte equal to what an unlisted address
reads as. -/
abbrev Memory.wf (m : Memory) : Prop := m.Pairwise (fun c d => c.1 < d.1) ∧ ∀ c ∈ m, c.2 ≠ 0

/-- `snap` (R51): the accepted word, the length registers and the input buffers as they stood at acceptance. `mem`
holds the bytes of SK, PK, SIG, U and MSG at their own addresses (log 13). -/
structure Snapshot where
  /-- `snap.CMD` (R46: the accepted word lives only here). -/
  cmd : Word
  skLen : Half
  pkLen : Half
  sigLen : Half
  msgLen : Half
  mem : Memory
deriving DecidableEq, Repr

/-- The engine's phase (R30). The snapshot exists exactly while the phase is BUSY (R48). -/
inductive Phase where
  | idle
  | busy (snap : Snapshot)
deriving DecidableEq, Repr

/-- The stored fields of STATUS (R39). BUSY is a view of the phase, not separate state (R40). -/
structure Status where
  done : Bool
  err : BitVec 3
  warn : Bool
  vok : Bool
  ovr : Bool
deriving DecidableEq, Repr

/-- One turn of one agent (R31): a host transaction (spec/20_memory.md R61), the engine, or the reset input
(spec/70_reset_and_hazards.md R210). The model's own, to say which agent moves next (log 1). -/
inductive Turn where
  /-- `MemRead(a, 4)`. -/
  | read (a : Addr)
  /-- `MemWrite(a, 4, v)`. -/
  | write (a : Addr) (v : Word)
  /-- The engine may take its completion step (R52). -/
  | engine
  /-- `rst_n` is asserted (R210). -/
  | reset
deriving DecidableEq, Repr

/-- The state of the block (R30), with two fields of the model's own at the end. -/
structure State where
  /-- SK, PK, SIG, U, OUT and MSG, each byte at its address in the register map (R63). -/
  mem : Memory
  skLen : Half
  pkLen : Half
  sigLen : Half
  msgLen : Half
  outLen : Half
  status : Status
  phase : Phase
  /-- The MODEL's own: the turns to come, first turn first. When none is left, the engine has the turn (log 1). -/
  turns : List Turn
  /-- The MODEL's own: the words host reads have returned, the latest first (log 2). -/
  replies : List Word
deriving DecidableEq, Repr

/-- The ways a step can stop. The spec gives the block no trap and no bus error (R61, R188, R189): an error of a command is
a completion, not a fault. -/
inductive Fault where
  /-- Raised by the meaning of a command applied to a state whose engine is IDLE: R52 gives a completion step "When
  `phase = BUSY`" only. `step` never raises it. Safe: it answers no next state where the spec gives none (log 7). -/
  | engineIdle
deriving DecidableEq, Repr

/-- The ways an instruction can be left without a meaning. -/
inductive Refusal where
  /-- Raised by an arm of `exec` whose instruction has no meaning. No arm of this model raises it. Safe. -/
  | notModelled (mnemonic : String)
deriving DecidableEq, Repr

/-- STATUS = 0 (R49). -/
def Status.reset : Status := { done := false, err := 0, warn := false, vok := false, ovr := false }

/-- The machine right after reset (R49, R210): IDLE, no snapshot, STATUS 0, every length 0, every byte 0x00. The two
fields of the model's own are empty (DESIGN CHOICE, log 1 and log 2). -/
def State.reset : State :=
  { mem := [], skLen := 0, pkLen := 0, sigLen := 0, msgLen := 0, outLen := 0,
    status := Status.reset, phase := .idle, turns := [], replies := [] }

end Sys2Proof.Machine
end

