-- ==== Sys2Proof/Machine/AddressMap.lean ====
section
/-! DEFINITION. The register map (spec/20_memory.md R63, R64). -/

namespace Sys2Proof.Machine

/-- The six buffers (R63). -/
inductive Buffer where
  | sk
  | pk
  | sig
  | u
  | out
  | msg
deriving DecidableEq, Repr

/-- The seven registers (R63). -/
inductive Reg where
  | cmd
  | status
  | skLen
  | pkLen
  | sigLen
  | msgLen
  | outLen
deriving DecidableEq, Repr

/-- The first address of a buffer (R63). -/
def Buffer.base : Buffer → Nat
  | .sk => 0x0020
  | .pk => 0x0040
  | .sig => 0x0080
  | .u => 0x00C0
  | .out => 0x0100
  | .msg => 0x1000

/-- The number of bytes of a buffer (R32 to R38, R63). -/
def Buffer.size (c : Config) : Buffer → Nat
  | .sk => 32
  | .pk => 33
  | .sig => 64
  | .u => 32
  | .out => 64
  | .msg => c.msgMax

/-- Whether host writes reach a buffer: all but OUT (R63, R64). -/
def Buffer.hostWritable : Buffer → Bool
  | .out => false
  | .sk => true
  | .pk => true
  | .sig => true
  | .u => true
  | .msg => true

/-- Whether the byte address `a` is one of the buffer's (R63). -/
def Buffer.holds (c : Config) (b : Buffer) (a : Nat) : Bool := decide (b.base ≤ a) && decide (a < b.base + b.size c)

/-- The buffers, in the order of the map (R63). -/
def Buffer.all : List Buffer := [.sk, .pk, .sig, .u, .out, .msg]

/-- The buffer that holds the byte at address `a`; none at a reserved address (R63, R64) and at a register's. -/
def bufferAt (c : Config) (a : Nat) : Option Buffer := Buffer.all.find? (fun b => b.holds c a)

/-- The address of a register (R63). -/
def Reg.addr : Reg → Nat
  | .cmd => 0x0000
  | .status => 0x0004
  | .skLen => 0x0008
  | .pkLen => 0x000C
  | .sigLen => 0x0010
  | .msgLen => 0x0014
  | .outLen => 0x0018

/-- The registers, in the order of the map (R63). -/
def Reg.all : List Reg := [.cmd, .status, .skLen, .pkLen, .sigLen, .msgLen, .outLen]

/-- The register whose word stands at word address `w` (R63). -/
def regAt (w : Nat) : Option Reg := Reg.all.find? (fun r => r.addr == w)

/-- The word address an access to byte address `a` acts on: `a & 0xFFFC` (R61). -/
def wordAddr (a : Addr) : Nat := (a &&& 0xFFFC).toNat

end Sys2Proof.Machine
end

