-- ==== Sys2Proof/Machine/Bytes.lean ====
section
/-! DEFINITION. Byte strings, little-endian integers and word packing (spec/00_scope.md R7 to R9, spec/20_memory.md R62). -/

namespace Sys2Proof.Machine

/-- `LE(B)`: the unsigned integer a byte string encodes little-endian (R9). -/
def leNat : List Byte → Nat
  | [] => 0
  | b :: bs => b.toNat + 256 * leNat bs

/-- `enc32(k)`: the 32-byte string `B` with `LE(B) = k`, for `k < 2^256` (R9). -/
def enc32 (k : Nat) : Bytes 32 := Vector.ofFn fun i => BitVec.ofNat 8 (k / 256 ^ i.val)

/-- Byte `k` of a word: bits `8k+7 : 8k` (R62). -/
def byteOf (v : Word) (k : Nat) : Byte := v.extractLsb' (8 * k) 8

/-- `word = B[w] | B[w+1]<<8 | B[w+2]<<16 | B[w+3]<<24` (R62). -/
def packWord (b0 b1 b2 b3 : Byte) : Word := b3 ++ b2 ++ b1 ++ b0

/-- Bit 7 of a byte: `(b >> 7) & 1` (R7, R120, R143). -/
def highBit (b : Byte) : Bool := b.getLsbD 7

/-- `b << 7` for a one-bit `b` (R148). -/
def shiftToHighBit (b : Bool) : Byte := if b then 0x80 else 0x00

end Sys2Proof.Machine
end

