-- ==== Sys2Proof/Machine/Flags.lean ====
section
/-! DEFINITION. STATUS: its word and everything that writes its fields (spec/10_state.md R36, R39 to R45). -/

namespace Sys2Proof.Machine

/-- The error codes a command can raise (spec/60_exceptions.md R180). -/
inductive ErrCode where
  /-- A wrong byte length for an input (R181). -/
  | invalidArgument
  /-- A wrong tag byte, or a Montgomery value without an Edwards point (R182). -/
  | invalidKeyFormat
  /-- A command word outside the opcode map (R183). -/
  | illegalCommand
deriving DecidableEq, Repr

/-- The value of STATUS.ERR for an error (R180). -/
def ErrCode.code : ErrCode → BitVec 3
  | .invalidArgument => 1
  | .invalidKeyFormat => 2
  | .illegalCommand => 3

/-- `phase = BUSY` (R40). -/
def Phase.isBusy : Phase → Bool
  | .idle => false
  | .busy _ => true

/-- The 32-bit word a read of STATUS returns (R39): BUSY[0], DONE[1], ERR[4:2], WARN[5], VOK[6], OVR[7], 31:8 zero. -/
def Status.toWord (st : Status) (busy : Bool) : Word :=
  (0 : BitVec 24) ++ BitVec.ofBool st.ovr ++ BitVec.ofBool st.vok ++ BitVec.ofBool st.warn ++ st.err
    ++ BitVec.ofBool st.done ++ BitVec.ofBool busy

/-- STATUS after acceptance: DONE, ERR, WARN, VOK and OVR are 0 (R51). -/
def Status.accepted : Status := { done := false, err := 0, warn := false, vok := false, ovr := false }

/-- STATUS after a completion without error (R52). OVR is not changed. -/
def Status.succeeded (st : Status) (warn vok : Bool) : Status :=
  { done := true, err := 0, warn := warn, vok := vok, ovr := st.ovr }

/-- STATUS after a completion with error `e` (R52, R184): VOK is 0, OVR is not changed. -/
def Status.failed (st : Status) (e : ErrCode) (warn : Bool) : Status :=
  { done := true, err := e.code, warn := warn, vok := false, ovr := st.ovr }

/-- STATUS after a CMD write while BUSY: OVR is 1, nothing else changes (R53). -/
def Status.overrun (st : Status) : Status := { st with ovr := true }

end Sys2Proof.Machine
end

