-- ==== Sys2Proof/Machine/Ops.lean ====
section
/-! DEFINITION. The named operations: bytes of memory, acceptance (spec/10_state.md R51), completion (R52), the raising of an
error (spec/60_exceptions.md R184) and the CMD write while BUSY (R53). -/

namespace Sys2Proof.Machine

/-- The byte at address `a`: the listed one, or 0x00 (R49). -/
def Memory.read : Memory → Nat → Byte
  | [], _ => 0
  | (k, b) :: m, a => if k = a then b else Memory.read m a

/-- `m` without any cell at address `a`. -/
def Memory.erase (m : Memory) (a : Nat) : Memory := m.filter (fun c => c.1 != a)

/-- `m` with the cell `(a, b)` before the first cell at a higher address. -/
def Memory.insert : Memory → Nat → Byte → Memory
  | [], a, b => [(a, b)]
  | (k, c) :: m, a, b => if k < a then (k, c) :: Memory.insert m a b else (a, b) :: (k, c) :: m

/-- Store byte `b` at address `a`, keeping the canonical form. -/
def Memory.write (m : Memory) (a : Nat) (b : Byte) : Memory :=
  if b = 0 then m.erase a else (m.erase a).insert a b

/-- Store a byte string at rising addresses from `a` on. -/
def Memory.writeBytes (m : Memory) (a : Nat) : List Byte → Memory
  | [] => m
  | b :: bs => Memory.writeBytes (m.write a b) (a + 1) bs

/-- The `n` bytes from address `a` on, as a byte string of fixed length. -/
def Memory.readVec (m : Memory) (a n : Nat) : Bytes n := Vector.ofFn fun i => m.read (a + i.val)

/-- The `n` bytes from address `a` on, as a list. -/
def Memory.readList (m : Memory) (a n : Nat) : List Byte := (List.range n).map fun i => m.read (a + i)

/-- What `Execute` answers (R52, R83): `Ok(o, w, v)` or `Err(e, w)`. -/
inductive CmdResult where
  | ok (o : List Byte) (warn vok : Bool)
  | err (e : ErrCode) (warn : Bool)
deriving DecidableEq, Repr

/-- `raise E` outside a legacy decode: `Err(E, 0)` (R184). -/
def raise (e : ErrCode) : CmdResult := .err e false

/-- The cells of the input buffers: all but OUT's (R51, log 13). -/
def inputCells (m : Memory) : Memory :=
  m.filter (fun c => !(decide (0x0100 ≤ c.1) && decide (c.1 < 0x0140)))

/-- The snapshot of an acceptance (R51). -/
def snapshotOf (s : State) (w : Word) : Snapshot :=
  { cmd := w, skLen := s.skLen, pkLen := s.pkLen, sigLen := s.sigLen, msgLen := s.msgLen, mem := inputCells s.mem }

/-- Acceptance of the word `w` (R51): every word is accepted, legal or not. -/
def accept (w : Word) (s : State) : State :=
  { s with status := Status.accepted, phase := .busy (snapshotOf s w) }

/-- A CMD write while BUSY (R53): OVR is set and the word is dropped. -/
def dropCommand (s : State) : State := { s with status := s.status.overrun }

/-- A host write of `w` to CMD (R46): acceptance while IDLE, dropped while BUSY. -/
def commandWrite (w : Word) (s : State) : State :=
  match s.phase with
  | .idle => accept w s
  | .busy _ => dropCommand s

/-- OUT[0..63] after a result `o`: its bytes, then 0x00 in each other byte (R52). -/
def outBytes (o : List Byte) : List Byte := (List.range 64).map fun i => o.getD i 0

/-- OUT, OUT_LEN and STATUS as the completion step writes them (R52). -/
def complete (r : CmdResult) (s : State) : State :=
  match r with
  | .ok o w v =>
    { s with mem := s.mem.writeBytes Buffer.out.base (outBytes o), outLen := BitVec.ofNat 16 o.length,
             status := s.status.succeeded w v, phase := .idle }
  | .err e w =>
    { s with mem := s.mem.writeBytes Buffer.out.base (outBytes []), outLen := 0,
             status := s.status.failed e w, phase := .idle }

/-- The completion step of a BUSY engine whose command computes `f` from the snapshot (R52): the shared operation of every
command's meaning. R52 gives no completion step while IDLE (log 7). -/
def finish (f : Snapshot → CmdResult) (s : State) : Host.Outcome State Fault Refusal :=
  match s.phase with
  | .busy x => .next (complete (f x) s)
  | .idle => .fault .engineIdle

/-- The completion of an illegal command word: IllegalCommand, reading no input (R84, R183). -/
def finishIllegal (s : State) : Host.Outcome State Fault Refusal :=
  finish (fun _ => raise .illegalCommand) s

end Sys2Proof.Machine
end

