-- ==== Sys2Proof/Machine/Primitives.lean ====
section
/-! DEFINITION. The primitives the machine runs with: what the library leaves free, and the functions the equations of the
source make of it (spec/00_scope.md R22 to R27; log 21). -/

namespace Sys2Proof

/-- `k·P`: the sum of `k` times `P` under a group operation, `zero` for `k = 0` (R23). -/
def multiple (add : Point → Point → Point) (zero P : Point) : Nat → Point
  | 0 => zero
  | k + 1 => add (multiple add zero P k) P

/-- `k mod ℓ`, an integer in `[0, ℓ)` (R22, R26). -/
def reduceModOrder (k : Nat) : Scalar := Fin.ofNat groupOrder k

/-- The ten functions of `Prim` for a library (R27): those the source does not state are the library's own, and
`ScalarReduce(B) = LE(B) mod ℓ` (R22), `BaseMul(k) = k·B` (R23), `s·B + h·(−A)` (R25) and `(r + h·a) mod ℓ` (R26). -/
def Library.toPrim (l : Library) : Prim where
  sha512 := l.sha512
  scalarReduce b := reduceModOrder (Machine.leNat b.toList)
  scalarReduceWide d := reduceModOrder (l.digestNat d)
  baseMul k := multiple l.add l.zero l.base k
  compress := l.compress
  neg := l.neg
  add := l.add
  montToEd := l.montToEd
  doubleScalarVartime s h A :=
    l.add (multiple l.add l.zero l.base s.val) (multiple l.add l.zero (l.neg A) h.val)
  scalarMulAdd r h a := reduceModOrder (r.val + h.val * a)

/-- The configuration a choice of parameters makes. -/
def Parameters.toConfig (q : Parameters) : Config :=
  { msgWords := q.msgWords, nonceKeyForm := q.nonceKeyForm, x0Sign1 := q.x0Sign1, prim := q.library.toPrim }

/-- The configuration the machine runs with: that of the open parameters (R6, log 3). -/
def Config.impl : Config := Parameters.impl.toConfig

end Sys2Proof
end

