-- ==== Sys2Proof/Machine/Operands.lean ====
section
/-! DEFINITION. The operand forms: every operand but S is a fixed buffer or length register, read from the snapshot
(spec/30_encoding.md R85, spec/10_state.md R51). -/

namespace Sys2Proof.Machine

/-- `snap.SK[0..31]` (R32). -/
def Snapshot.sk (x : Snapshot) : Bytes 32 := x.mem.readVec Buffer.sk.base 32

/-- `snap.PK[0..32]` (R33). -/
def Snapshot.pk (x : Snapshot) : Bytes 33 := x.mem.readVec Buffer.pk.base 33

/-- `snap.SIG[0..63]` (R34). -/
def Snapshot.sig (x : Snapshot) : Bytes 64 := x.mem.readVec Buffer.sig.base 64

/-- `snap.U[0..31]` (R35). -/
def Snapshot.u (x : Snapshot) : Bytes 32 := x.mem.readVec Buffer.u.base 32

/-- `M = snap.MSG[0..MSG_LEN-1]`, the empty string when MSG_LEN = 0 (R37). -/
def Snapshot.msg (x : Snapshot) : List Byte := x.mem.readList Buffer.msg.base x.msgLen.toNat

/-- `snap.MSG_LEN > MSG_MAX` (R141, R161). -/
abbrev Snapshot.msgTooLong (c : Config) (x : Snapshot) : Prop := c.msgMax < x.msgLen.toNat

end Sys2Proof.Machine
end

