-- ==== Sys2Proof/Machine/EdFromMont.lean ====
section
/-! DEFINITION. The Edwards-from-Montgomery family: ED_FROM_MONT and sign recovery (spec/41_ed_from_mont.md). -/

namespace Sys2Proof.Machine

/-- `SignRecover(sig)` (R120): bit 7 of byte 63, and the working copy with that bit cleared. -/
def signRecover (sig : Bytes 64) : Bool × Bytes 64 := (highBit sig[63], sig.set 63 (sig[63] &&& 0x7F))

/-- `EdFromMontCmd(snap, S)` (R122). U goes to the primitive unchanged (R123). -/
def edFromMontCmd (c : Config) (sign : Bool) (x : Snapshot) : CmdResult :=
  match c.prim.montToEd x.u sign with
  | none => raise .invalidKeyFormat
  | some P => .ok (c.prim.compress P).toList false false

/-- ED_FROM_MONT with the sign bit `sign` (R122). -/
def execEdFromMont (sign : Bool) (s : State) : Host.Outcome State Fault Refusal :=
  finish (edFromMontCmd Config.impl sign) s

end Sys2Proof.Machine
end

