-- ==== Sys2Proof/Machine/KeyCodec.lean ====
section
/-! DEFINITION. The key codec family: CLAMP, ENCODE_PUB, DECODE_PUB (spec/40_keycodec.md). -/

namespace Sys2Proof.Machine

/-- `Clamp(x)` (R101): bits 0 to 2 of byte 0 and bit 7 of byte 31 cleared, bit 6 of byte 31 set. -/
def clamp (x : Bytes 32) : Bytes 32 := (x.set 0 (x[0] &&& 0xF8)).set 31 ((x[31] &&& 0x7F) ||| 0x40)

/-- `ClampCmd(snap)` (R102). -/
def clampCmd (x : Snapshot) : CmdResult :=
  if x.skLen = 32 then .ok (clamp x.sk).toList false false else raise .invalidArgument

/-- CLAMP (R102). -/
def execClamp (s : State) : Host.Outcome State Fault Refusal := finish clampCmd s

/-- The type tag of a public key (R105). -/
def keyTag : Byte := 0x05

/-- `EncodePublic(u)` = `0x05 ‖ u` (R105). -/
def encodePublic (u : Bytes 32) : Bytes 33 := Vector.ofFn fun i => if h : i.val = 0 then keyTag else u[i.val - 1]

/-- `EncodePubCmd(snap)` (R106): no check, no error. -/
def encodePubCmd (x : Snapshot) : CmdResult := .ok (encodePublic x.u).toList false false

/-- ENCODE_PUB (R106). -/
def execEncodePub (s : State) : Host.Outcome State Fault Refusal := finish encodePubCmd s

/-- What `DecodePublic` answers (R107): `DOk(u, w)` or `DErr(e)`. -/
inductive DecodedKey where
  | ok (u : Bytes 32) (warn : Bool)
  | err (e : ErrCode)
deriving DecidableEq, Repr

/-- The u-coordinate of the tagged form: `pk[1..32]` (R107). -/
def taggedU (pk : Bytes 33) : Bytes 32 := Vector.ofFn fun i => pk[i.val + 1]

/-- The u-coordinate of the legacy form: `pk[0..31]` (R107). -/
def legacyU (pk : Bytes 33) : Bytes 32 := Vector.ofFn fun i => pk[i.val]

/-- `DecodePublic(pk, n)` (R107): the length is checked before the tag. -/
def decodePublic (pk : Bytes 33) (n : Half) : DecodedKey :=
  if n = 33 then
    if pk[0] = keyTag then .ok (taggedU pk) false else .err .invalidKeyFormat
  else if n = 32 then .ok (legacyU pk) true
  else .err .invalidArgument

/-- `DecodePubCmd(snap)` (R108). -/
def decodePubCmd (x : Snapshot) : CmdResult :=
  match decodePublic x.pk x.pkLen with
  | .ok u w => .ok u.toList w false
  | .err e => raise e

/-- DECODE_PUB (R108). -/
def execDecodePub (s : State) : Host.Outcome State Fault Refusal := finish decodePubCmd s

end Sys2Proof.Machine
end

