-- ==== Sys2Proof/Machine/Sign.lean ====
section
/-! DEFINITION. The XEdDSA sign family: SIGN (spec/42_xeddsa_sign.md). -/

namespace Sys2Proof.Machine

/-- Step 3's key bytes `K` (R144): the clamped bytes, or the encoding of the clamped scalar mod `ℓ`. -/
def nonceKey (form : NonceKeyForm) (aBytes : Bytes 32) : Bytes 32 :=
  match form with
  | .clamped => aBytes
  | .reduced => enc32 (leNat aBytes.toList % groupOrder)

/-- The challenge `h = ReduceWide(SHA512(R ‖ A ‖ M))` of SIGN (R146) and of VERIFY (R166). -/
def challenge (p : Prim) (rBytes aBytes : Bytes 32) (m : List Byte) : Scalar :=
  p.scalarReduceWide (p.sha512 (rBytes.toList ++ aBytes.toList ++ m))

/-- Step 7 (R148): `R ‖ enc32(s)`, the sign bit ORed into bit 7 of byte 63. -/
def foldSignature (rBytes : Bytes 32) (s : Scalar) (b : Bool) : Bytes 64 :=
  let sig : Bytes 64 := rBytes ++ enc32 s.val
  sig.set 63 (sig[63] ||| shiftToHighBit b)

/-- The seven steps of SIGN (R142 to R148) on the private scalar `sk` and the message `m`. -/
def xeddsaSign (c : Config) (sk : Bytes 32) (m : List Byte) : Bytes 64 :=
  let p := c.prim
  let aBytes := clamp sk
  let a := leNat aBytes.toList
  let pubBytes := p.compress (p.baseMul a)
  let b := highBit pubBytes[31]
  let r := p.scalarReduceWide (p.sha512 ((nonceKey c.nonceKeyForm aBytes).toList ++ m))
  let rBytes := p.compress (p.baseMul r.val)
  let h := challenge p rBytes pubBytes m
  foldSignature rBytes (p.scalarMulAdd r h a) b

/-- `SignCmd(snap)` (R149), its checks in the order of R141. -/
def signCmd (c : Config) (x : Snapshot) : CmdResult :=
  if x.msgTooLong c then raise .invalidArgument
  else if x.skLen ≠ 32 then raise .invalidArgument
  else .ok (xeddsaSign c x.sk x.msg).toList false false

/-- SIGN (R149). -/
def execSign (s : State) : Host.Outcome State Fault Refusal := finish (signCmd Config.impl) s

end Sys2Proof.Machine
end

