-- ==== Sys2Proof/Machine/Verify.lean ====
section
/-! DEFINITION. The XEdDSA verify family: VERIFY (spec/43_xeddsa_verify.md). -/

namespace Sys2Proof.Machine

/-- `w[0..31]`, the R half of a working signature (R165). -/
def sigR (w : Bytes 64) : Bytes 32 := Vector.ofFn fun i => w[i.val]

/-- `w[32..63]`, the s half of a working signature (R165). -/
def sigS (w : Bytes 64) : Bytes 32 := Vector.ofFn fun i => w[i.val + 32]

/-- Steps 4 to 8 (R164 to R168) for the working signature `w`, the point `A` and the message `m`. -/
def signatureMatches (p : Prim) (w : Bytes 64) (A : Point) (m : List Byte) : Bool :=
  let aBytes := p.compress A
  let rBytes := sigR w
  let s := p.scalarReduce (sigS w)
  let h := challenge p rBytes aBytes m
  p.compress (p.doubleScalarVartime s h A) == rBytes

/-- `VerifyCmd(snap)` (R169), its checks in the order of R187. A failing map keeps the warning of a legacy key (R163). -/
def verifyCmd (c : Config) (x : Snapshot) : CmdResult :=
  if x.msgTooLong c then raise .invalidArgument
  else if x.sigLen ≠ 64 then raise .invalidArgument
  else
    match decodePublic x.pk x.pkLen with
    | .err e => raise e
    | .ok u warn =>
      match c.prim.montToEd u (signRecover x.sig).1 with
      | none => .err .invalidKeyFormat warn
      | some A => .ok [] warn (signatureMatches c.prim (signRecover x.sig).2 A x.msg)

/-- VERIFY (R169). -/
def execVerify (s : State) : Host.Outcome State Fault Refusal := finish (verifyCmd Config.impl) s

end Sys2Proof.Machine
end

