-- ==== Sys2Proof/Machine/Dispatch.lean ====
section
/-! DEFINITION. `Execute`'s dispatch (spec/30_encoding.md R83): each command's meaning, one arm per constructor. -/

namespace Sys2Proof.Machine

def exec (i : Instr) (s : State) : Host.Outcome State Fault Refusal :=
  match i with
  | .clamp => Sys2Proof.Machine.execClamp s
  | .encodePub => Sys2Proof.Machine.execEncodePub s
  | .decodePub => Sys2Proof.Machine.execDecodePub s
  | .edFromMont sign => Sys2Proof.Machine.execEdFromMont sign s
  | .sign => Sys2Proof.Machine.execSign s
  | .verify => Sys2Proof.Machine.execVerify s

end Sys2Proof.Machine
end

