-- ==== Sys2Proof/Machine/Port.lean ====
section
/-! DEFINITION. The host port (spec/20_memory.md R61 to R68) and the reset input (spec/70_reset_and_hazards.md R210). -/

namespace Sys2Proof.Machine

/-- The word a read of a register returns (R39, R46, R50). -/
def readReg (s : State) : Reg → Word
  | .cmd => 0
  | .status => s.status.toWord s.phase.isBusy
  | .skLen => s.skLen.setWidth 32
  | .pkLen => s.pkLen.setWidth 32
  | .sigLen => s.sigLen.setWidth 32
  | .msgLen => s.msgLen.setWidth 32
  | .outLen => s.outLen.setWidth 32

/-- The state after a host write of `v` to a register (R46, R50, R64): STATUS and OUT_LEN ignore it, a length register
keeps `v[15:0]`. -/
def writeReg (s : State) (v : Word) : Reg → State
  | .cmd => commandWrite v s
  | .status => s
  | .skLen => { s with skLen := v.extractLsb' 0 16 }
  | .pkLen => { s with pkLen := v.extractLsb' 0 16 }
  | .sigLen => { s with sigLen := v.extractLsb' 0 16 }
  | .msgLen => { s with msgLen := v.extractLsb' 0 16 }
  | .outLen => s

/-- The byte a host read sees at address `a`: a buffer's byte, 0x00 at a reserved address (R64). -/
def hostReadByte (c : Config) (m : Memory) (a : Nat) : Byte :=
  match bufferAt c a with
  | some _ => m.read a
  | none => 0

/-- A host write of one byte of a word: it reaches the buffers but OUT, and is ignored elsewhere (R64). -/
def hostWriteByte (c : Config) (m : Memory) (a : Nat) (b : Byte) : Memory :=
  match bufferAt c a with
  | some buf => if buf.hostWritable then m.write a b else m
  | none => m

/-- The word of bytes at word address `w` (R62). -/
def hostReadBytes (c : Config) (m : Memory) (w : Nat) : Word :=
  packWord (hostReadByte c m w) (hostReadByte c m (w + 1)) (hostReadByte c m (w + 2)) (hostReadByte c m (w + 3))

/-- A write of the four bytes of `v` at word address `w` (R62). -/
def hostWriteBytes (c : Config) (m : Memory) (w : Nat) (v : Word) : Memory :=
  let m0 := hostWriteByte c m w (byteOf v 0)
  let m1 := hostWriteByte c m0 (w + 1) (byteOf v 1)
  let m2 := hostWriteByte c m1 (w + 2) (byteOf v 2)
  hostWriteByte c m2 (w + 3) (byteOf v 3)

/-- `MemRead(a, 4)` (R61). -/
def portRead (c : Config) (s : State) (a : Addr) : Word :=
  match regAt (wordAddr a) with
  | some r => readReg s r
  | none => hostReadBytes c s.mem (wordAddr a)

/-- `MemWrite(a, 4, v)` (R61, R68). -/
def portWrite (c : Config) (s : State) (a : Addr) (v : Word) : State :=
  match regAt (wordAddr a) with
  | some r => writeReg s v r
  | none => { s with mem := hostWriteBytes c s.mem (wordAddr a) v }

/-- The turn of a host read: its word goes to the host, and nothing else changes (R68, log 2). -/
def readTurn (c : Config) (s : State) (a : Addr) : State := { s with replies := portRead c s a :: s.replies }

/-- Reset (R210, R211): every piece of state at its value of R49. What is outside the block, the turns to come and the words
the host has already received, stays (log 19). -/
def resetTurn (s : State) : State := { State.reset with turns := s.turns, replies := s.replies }

end Sys2Proof.Machine
end

