-- ==== Sys2Proof/Machine/Step.lean ====
section
/-! DEFINITION. One step of the machine: one host transaction, one engine turn or one reset (spec/10_state.md R31,
spec/20_memory.md R69). -/

namespace Sys2Proof.Machine

/-- The engine's turn: the completion step of R52 while BUSY, whose `Execute(snap)` decodes `snap.CMD` (R83), and nothing
while IDLE (log 8). -/
def engineTurn (s : State) : Host.Outcome State Fault Refusal :=
  match s.phase with
  | .idle => .next s
  | .busy x =>
    match decode x.cmd with
    | .ok i => exec i s
    | .error _ => finishIllegal s

/-- One step: the next turn is taken, and when no turn is pending the engine has it, so that a BUSY engine completes
(R218's weak fairness, log 1). -/
def step (s : State) : Host.Outcome State Fault Refusal :=
  match s.turns with
  | [] => engineTurn s
  | .engine :: rest => engineTurn { s with turns := rest }
  | .read a :: rest => .next (readTurn Config.impl { s with turns := rest } a)
  | .write a v :: rest => .next (portWrite Config.impl { s with turns := rest } a v)
  | .reset :: rest => .next (resetTurn { s with turns := rest })

/-- `s` with the command word made of the lower `nbits` bits of `w` accepted, and no turn pending: the next step completes it.
It stands for a host's CMD write (R51, log 11). -/
def State.withFetchWord (s : State) (nbits w : Nat) : State :=
  { accept (wordOfBytes (tableBytes nbits w)) s with turns := [] }

end Sys2Proof.Machine
end

