-- ==== Sys2Proof/Machine/HostProgram.lean ====
section
/-! DEFINITION. Host programs (spec/30_encoding.md R87, R88): their syntax, the expansion of the pseudo-instructions, and a
host that runs one over the port. The block sees only the transactions (R87); `step` does not depend on this file (log 18). -/

namespace Sys2Proof.Machine

/-- The value a `wr` stores: a literal, or what an earlier `rd` put into a temporary (R87). -/
inductive HostValue where
  | lit (v : Word)
  | temp (t : Nat)
deriving DecidableEq, Repr

/-- The statements of R87. Labels and temporaries are numbered. -/
inductive HostStmt where
  /-- `wr <addr>, <v32>`. -/
  | wr (a : Addr) (v : HostValue)
  /-- `rd <addr> -> <t>`. -/
  | rd (a : Addr) (t : Nat)
  /-- `<label>:`. -/
  | label (l : Nat)
  /-- `bnz <t>, <mask>, <label>`. -/
  | bnz (t : Nat) (mask : Word) (l : Nat)
deriving DecidableEq, Repr

/-- The pseudo-instructions of R88; where an expansion needs a label or temporaries, they are named here,
so that two polls of one program can have labels of their own (log 18). -/
inductive HostPseudo where
  | cmd (i : Instr)
  | poll (l t : Nat)
  | wrbuf (b : Buffer) (bs : List Byte)
  | wrlen (r : Reg) (n : Word)
  | rdbuf (b : Buffer) (n t : Nat)
  | expect (a : Addr) (v : Word) (t : Nat)
deriving DecidableEq, Repr

/-- The address of a register, as the name that replaces it in a program (R87). -/
def regAddr (r : Reg) : Addr := BitVec.ofNat 16 r.addr

/-- The address of byte `k` of a buffer, as the name that replaces it in a program (R87). -/
def bufAddr (b : Buffer) (k : Nat) : Addr := BitVec.ofNat 16 (b.base + k)

/-- The expansions of R88. -/
def HostPseudo.expand : HostPseudo → List HostStmt
  | .cmd i => [.wr (regAddr .cmd) (.lit (encode i))]
  | .poll l t => [.label l, .rd (regAddr .status) t, .bnz t 0x1 l]
  | .wrbuf b bs =>
    (List.range ((bs.length + 3) / 4)).map fun k =>
      .wr (bufAddr b (4 * k)) (.lit (packWord (bs.getD (4 * k) 0) (bs.getD (4 * k + 1) 0) (bs.getD (4 * k + 2) 0)
        (bs.getD (4 * k + 3) 0)))
  | .wrlen r n => [.wr (regAddr r) (.lit n)]
  | .rdbuf b n t => (List.range ((n + 3) / 4)).map fun k => .rd (bufAddr b (4 * k)) (t + k)
  | .expect a _ t => [.rd a t]

/-- The assertion `t = v32` of an `expect`: test notation, not a transaction (R88). -/
def HostPseudo.assertion : HostPseudo → Option (Nat × Word)
  | .cmd _ => none
  | .poll _ _ => none
  | .wrbuf _ _ => none
  | .wrlen _ _ => none
  | .rdbuf _ _ _ => none
  | .expect _ v t => some (t, v)

/-- A host in the middle of its program, with the block it drives. -/
structure HostRun where
  /-- The position in the program. -/
  pc : Nat
  /-- The temporaries written so far, the latest first. One never written reads 0 (log 18). -/
  temps : List (Nat × Word)
  block : State
deriving DecidableEq, Repr

/-- The value of a temporary. -/
def HostRun.temp (h : HostRun) (t : Nat) : Word := (h.temps.lookup t).getD 0

/-- The value of an operand. -/
def HostRun.value (h : HostRun) : HostValue → Word
  | .lit v => v
  | .temp t => h.temp t

/-- The position a branch to a label goes to. R87 does not say where a branch goes whose label stands twice (R88 writes every
`poll` with the same `L`) or nowhere. DESIGN CHOICE (log 18): the first occurrence, and the end of the program where there
is none. -/
def labelIndex (prog : List HostStmt) (l : Nat) : Nat := prog.findIdx (fun st => st == .label l)

/-- One turn of the block, put before the turns already pending. -/
def takeTurn (t : Turn) (s : State) : Host.Outcome State Fault Refusal := step { s with turns := t :: s.turns }

/-- Continue a host's run with the block an outcome leaves. -/
def withBlock (o : Host.Outcome State Fault Refusal) (f : State → HostRun) : Host.Outcome HostRun Fault Refusal :=
  match o with
  | .next b => .next (f b)
  | .fault e => .fault e
  | .refused e => .refused e

/-- The host executes its next statement (R87); at the end of the program it does nothing (R221). -/
def HostRun.hostStep (prog : List HostStmt) (h : HostRun) : Host.Outcome HostRun Fault Refusal :=
  match prog[h.pc]? with
  | none => .next h
  | some (.wr a v) => withBlock (takeTurn (.write a (h.value v)) h.block) fun b => { h with pc := h.pc + 1, block := b }
  | some (.rd a t) =>
    withBlock (takeTurn (.read a) h.block) fun b =>
      { pc := h.pc + 1, temps := (t, b.replies.headD 0) :: h.temps, block := b }
  | some (.label _) => .next { h with pc := h.pc + 1 }
  | some (.bnz t mask l) =>
    .next { h with pc := if h.temp t &&& mask ≠ 0 then labelIndex prog l else h.pc + 1 }

/-- The engine has a turn between two statements of the host (R69). -/
def HostRun.engineStep (h : HostRun) : Host.Outcome HostRun Fault Refusal :=
  withBlock (takeTurn .engine h.block) fun b => { h with block := b }

/-- "a host program has ended when its last transaction is done" (R221). -/
def HostRun.ended (prog : List HostStmt) (h : HostRun) : Bool := decide (prog.length ≤ h.pc)

end Sys2Proof.Machine
end

