-- ==== Sys2Proof/Machine/Reference.lean ====
section
/-! DEFINITION. The reference record of primitives (spec/00_scope.md R20 to R26, which the spec marks as general knowledge,
not the source's). No meaning uses it: the machine runs with `Config.impl`, whose library is open. A statement that needs a concrete
primitive names it (R27, log 5, log 6). -/

namespace Sys2Proof.Machine.Reference

/-! SHA-512 (R20 names it; its definition is FIPS 180-4's, PRESUMED, log 5). -/

/-- The greatest `r < 2 ^ bits` with `r ^ e ≤ n`, bit by bit from the top, above the bits `r` already has. -/
def floorRoot (e n : Nat) : Nat → Nat → Nat
  | 0, r => r
  | bits + 1, r => floorRoot e n bits (if (r + 2 ^ bits) ^ e ≤ n then r + 2 ^ bits else r)

/-- The first 64 bits after the point of the `e`-th root of `n`, for a root below 2 ^ 5. -/
def rootFraction (e n : Nat) : BitVec 64 := BitVec.ofNat 64 (floorRoot e (n * 2 ^ (64 * e)) 69 0)

/-- The primes below `n`, for `n` at most 23 squared. -/
def primesBelow (n : Nat) : List Nat :=
  (List.range n).filter fun k => decide (2 ≤ k) && (List.range 23).all fun d => decide (d < 2) || d == k || k % d != 0

/-- The 80 round constants: from the cube roots of the primes below 410. -/
def roundConstants : List (BitVec 64) := (primesBelow 410).map (rootFraction 3)

/-- The initial hash value, words a to h: from the square roots of the primes below 20. -/
def initialHash : List (BitVec 64) := (primesBelow 20).map (rootFraction 2)

/-- The eight working words of the compression function. -/
structure Sha where
  a : BitVec 64
  b : BitVec 64
  c : BitVec 64
  d : BitVec 64
  e : BitVec 64
  f : BitVec 64
  g : BitVec 64
  h : BitVec 64
deriving DecidableEq, Repr

/-- The two mixing functions of the message schedule and the two of the rounds. -/
def smallSigma0 (x : BitVec 64) : BitVec 64 := x.rotateRight 1 ^^^ x.rotateRight 8 ^^^ (x >>> 7)
def smallSigma1 (x : BitVec 64) : BitVec 64 := x.rotateRight 19 ^^^ x.rotateRight 61 ^^^ (x >>> 6)
def bigSigma0 (x : BitVec 64) : BitVec 64 := x.rotateRight 28 ^^^ x.rotateRight 34 ^^^ x.rotateRight 39
def bigSigma1 (x : BitVec 64) : BitVec 64 := x.rotateRight 14 ^^^ x.rotateRight 18 ^^^ x.rotateRight 41

/-- One round with schedule word `w` and constant `k`. -/
def Sha.round (s : Sha) (k w : BitVec 64) : Sha :=
  let t1 := s.h + bigSigma1 s.e + ((s.e &&& s.f) ^^^ (~~~s.e &&& s.g)) + k + w
  let t2 := bigSigma0 s.a + ((s.a &&& s.b) ^^^ (s.a &&& s.c) ^^^ (s.b &&& s.c))
  { a := t1 + t2, b := s.a, c := s.b, d := s.c, e := s.d + t1, f := s.e, g := s.f, h := s.g }

/-- The message schedule, the latest word first, `n` words past the 16 words `w` of a block. -/
def schedule (w : List (BitVec 64)) : Nat → List (BitVec 64)
  | 0 => w
  | n + 1 =>
    let v := schedule w n
    (smallSigma1 (v.getD 1 0) + v.getD 6 0 + smallSigma0 (v.getD 14 0) + v.getD 15 0) :: v

/-- The rounds over the schedule, the first word first. -/
def rounds (s : Sha) : List (BitVec 64) → List (BitVec 64) → Sha
  | k :: ks, w :: ws => rounds (s.round k w) ks ws
  | _, _ => s

/-- The compression of one block of 16 words into the hash value. -/
def compressBlock (s : Sha) (block : List (BitVec 64)) : Sha :=
  let t := rounds s roundConstants (schedule block.reverse 64).reverse
  { a := s.a + t.a, b := s.b + t.b, c := s.c + t.c, d := s.d + t.d,
    e := s.e + t.e, f := s.f + t.f, g := s.g + t.g, h := s.h + t.h }

/-- The big-endian word of eight bytes. -/
def wordOf8 (bs : List Byte) : BitVec 64 := BitVec.ofNat 64 (leNat (bs.take 8).reverse)

/-- `n` words of a byte string. -/
def wordsOf (bs : List Byte) : Nat → List (BitVec 64)
  | 0 => []
  | n + 1 => wordOf8 bs :: wordsOf (bs.drop 8) n

/-- The compression of `n` blocks of 128 bytes. -/
def hashBlocks (s : Sha) (bs : List Byte) : Nat → Sha
  | 0 => s
  | n + 1 => hashBlocks (compressBlock s (wordsOf bs 16)) (bs.drop 128) n

/-- The padded message: 0x80, zeros, and the bit length in 16 bytes, big-endian. -/
def pad (m : List Byte) : List Byte :=
  let zeros := (239 - m.length % 128) % 128
  m ++ [0x80] ++ List.replicate zeros 0 ++
    (List.range 16).map fun i => BitVec.ofNat 8 ((8 * m.length) / 256 ^ (15 - i))

/-- The words of a hash value, a first. -/
def Sha.words (s : Sha) : List (BitVec 64) := [s.a, s.b, s.c, s.d, s.e, s.f, s.g, s.h]

/-- The hash value before the first block. -/
def Sha.initial : Sha :=
  { a := initialHash.getD 0 0, b := initialHash.getD 1 0, c := initialHash.getD 2 0, d := initialHash.getD 3 0,
    e := initialHash.getD 4 0, f := initialHash.getD 5 0, g := initialHash.getD 6 0, h := initialHash.getD 7 0 }

/-- `SHA512(B)`: the 64-byte digest, each word big-endian. -/
def sha512 (m : List Byte) : Bytes 64 :=
  let ws := (hashBlocks Sha.initial (pad m) ((m.length + 144) / 128)).words
  Vector.ofFn fun i => (ws.getD (i.val / 8) 0).extractLsb' (8 * (7 - i.val % 8)) 8

/-! The field of order `p` and the curve (R21). -/

/-- `p = 2^255 - 19` (R21). -/
def fieldPrime : Nat := 2 ^ 255 - 19

/-- `b ^ e mod p` for `e < 2 ^ fuel`. -/
def powMod : Nat → Nat → Nat → Nat
  | 0, _, _ => 1
  | fuel + 1, b, e =>
    let t := powMod fuel (b * b % fieldPrime) (e / 2)
    if e % 2 = 1 then t * b % fieldPrime else t

/-- The inverse mod `p` of a number not divisible by `p`, by Fermat's little theorem (log 6). -/
def inv (a : Nat) : Nat := powMod 255 a (fieldPrime - 2)

/-- `(a - b) mod p`. -/
def subMod (a b : Nat) : Nat := (a + (fieldPrime - b % fieldPrime)) % fieldPrime

/-- The curve constant `d = -121665/121666 mod p` (R21). -/
def curveD : Nat := 0x52036CEE2B6FFE738CC740797779E89800700A4D4141D8AB75EB4DCA135978A3

/-- A square root of -1 mod `p`: `2 ^ ((p - 1) / 4)`. -/
def sqrtMinusOne : Nat := powMod 255 2 ((fieldPrime - 1) / 4)

/-- A square root of `t` mod `p`, if there is one. As `p mod 8 = 5`, it is `t ^ ((p + 3) / 8)`, or that times a square root
of -1 (log 6). -/
def sqrtMod (t : Nat) : Option Nat :=
  let r := powMod 255 t ((fieldPrime + 3) / 8)
  let r' := r * sqrtMinusOne % fieldPrime
  if r * r % fieldPrime = t % fieldPrime then some r
  else if r' * r' % fieldPrime = t % fieldPrime then some r'
  else none

/-! The group (R23, R25), in extended coordinates: `x = X/Z`, `y = Y/Z`, `T = XY/Z` (log 5). -/

/-- A point in extended coordinates. -/
structure Ext where
  X : Nat
  Y : Nat
  Z : Nat
  T : Nat
deriving DecidableEq, Repr

/-- The extended coordinates of a point. -/
def Ext.ofPoint (P : Point) : Ext := { X := P.x, Y := P.y, Z := 1, T := P.x * P.y % fieldPrime }

/-- The affine point of extended coordinates. -/
def Ext.toPoint (e : Ext) : Point :=
  let z := inv e.Z
  { x := e.X * z % fieldPrime, y := e.Y * z % fieldPrime }

/-- The neutral element `(0, 1)`. -/
def Ext.zero : Ext := { X := 0, Y := 1, Z := 1, T := 0 }

/-- The Edwards group law. -/
def Ext.add (s t : Ext) : Ext :=
  let a := subMod s.Y s.X * subMod t.Y t.X % fieldPrime
  let b := (s.Y + s.X) * (t.Y + t.X) % fieldPrime
  let c := 2 * curveD * s.T * t.T % fieldPrime
  let d := 2 * s.Z * t.Z % fieldPrime
  let e := subMod b a
  let f := subMod d c
  let g := (d + c) % fieldPrime
  let h := (b + a) % fieldPrime
  { X := e * f % fieldPrime, Y := g * h % fieldPrime, Z := f * g % fieldPrime, T := e * h % fieldPrime }

/-- `k·P` for `k < 2 ^ fuel`, by doubling. -/
def Ext.mul : Nat → Nat → Ext → Ext
  | 0, _, _ => Ext.zero
  | fuel + 1, k, P =>
    let half := Ext.mul fuel (k / 2) P
    let twice := half.add half
    if k % 2 = 1 then twice.add P else twice

/-- The Edwards base point `B`: y = 4/5, x even (R21). -/
def basePoint : Point :=
  { x := 0x216936D3CD6E53FEC0A4E231FDD6DC5C692CC7609525A7B2C9562D608F25D51A
    y := 0x6666666666666666666666666666666666666666666666666666666666666658 }

/-- `BaseMul(k) = BaseMul(k mod ℓ)` (R23). -/
def baseMulExt (k : Nat) : Ext := Ext.mul 253 (k % groupOrder) (Ext.ofPoint basePoint)

/-- `Compress(P)` = `enc32(y) | (x mod 2)·2^255` (R23). -/
def compress (P : Point) : Bytes 32 := enc32 (P.y % fieldPrime + (P.x % fieldPrime % 2) * 2 ^ 255)

/-- `Neg(P)` = `(−x mod p, y)` (R23). -/
def neg (P : Point) : Point := { x := subMod 0 P.x, y := P.y }

/-- `Decompress(yb)` (R24). -/
def decompress (x0 : X0Sign1) (yb : Bytes 32) : Option Point :=
  let y := leNat yb.toList % 2 ^ 255 % fieldPrime
  let s := highBit yb[31]
  let t := subMod (y * y) 1 * inv ((curveD * (y * y) + 1) % fieldPrime) % fieldPrime
  if t = 0 then
    if s = true ∧ x0 = .reject then none else some { x := 0, y := y }
  else
    match sqrtMod t with
    | none => none
    | some r => some { x := if decide (r % 2 = 1) = s then r else fieldPrime - r, y := y }

/-- `MontToEd(u_bytes, sign)` (R24). -/
def montToEd (x0 : X0Sign1) (uBytes : Bytes 32) (sign : Bool) : Option Point :=
  let u := leNat uBytes.toList % 2 ^ 255 % fieldPrime
  if u = fieldPrime - 1 then none
  else
    let y := subMod u 1 * inv ((u + 1) % fieldPrime) % fieldPrime
    let yb := enc32 y
    decompress x0 (yb.set 31 (yb[31] ^^^ shiftToHighBit sign))

/-- The reference record (R20 to R26) under the parameter `X0_SIGN1`. -/
def prim (x0 : X0Sign1) : Prim where
  sha512 := sha512
  scalarReduce b := reduceModOrder (leNat b.toList)
  scalarReduceWide d := reduceModOrder (leNat d.toList)
  baseMul k := (baseMulExt k).toPoint
  compress := compress
  neg := neg
  add P Q := ((Ext.ofPoint P).add (Ext.ofPoint Q)).toPoint
  montToEd := montToEd x0
  doubleScalarVartime s h A :=
    ((baseMulExt s.val).add (Ext.mul 253 h.val (Ext.ofPoint (neg A)))).toPoint
  scalarMulAdd r h a := reduceModOrder (r.val + h.val * a)

/-- The configuration of spec/95_test_vectors.md with the reference record: any MSG_MAX, NONCE_KEY_FORM and X0_SIGN1. -/
def config (msgWords : Fin 0x3C00) (form : NonceKeyForm) (x0 : X0Sign1) : Config :=
  { msgWords := msgWords, nonceKeyForm := form, x0Sign1 := x0, prim := prim x0 }

end Sys2Proof.Machine.Reference
end

