-- ==== Sys2Proof/Safety.lean ====
section
/-! DEFINITION. What counts as a good state and a well-behaved host, in the words claims use. -/

namespace Sys2Proof.Machine

/-- Every listed byte lies in a buffer: "Nothing else is state" (spec/10_state.md R30), and reserved addresses hold
nothing (spec/20_memory.md R64). -/
def Memory.mapped (c : Config) (m : Memory) : Prop := ∀ cell ∈ m, (bufferAt c cell.1).isSome = true

/-- No listed byte lies in OUT: the memory of a snapshot (R51). -/
def Memory.inputOnly (m : Memory) : Prop := ∀ cell ∈ m, ¬ (0x0100 ≤ cell.1 ∧ cell.1 < 0x0140)

/-- A snapshot's memory is in canonical form and holds input buffers only (R51). -/
def Snapshot.wf (c : Config) (x : Snapshot) : Prop := x.mem.wf ∧ x.mem.mapped c ∧ x.mem.inputOnly

/-- The memories of a state are in canonical form and hold buffers only. -/
def State.memoriesWf (c : Config) (s : State) : Prop :=
  s.mem.wf ∧ s.mem.mapped c ∧ ∀ x, s.phase = .busy x → x.wf c

/-- What OUT, OUT_LEN and STATUS say together (spec/10_state.md R38 to R44, R51, R52). -/
structure State.ResultConsistent (s : State) : Prop where
  /-- OUT_LEN is 0, 32, 33 or 64 (R38). -/
  outLen_legal : s.outLen = 0 ∨ s.outLen = 32 ∨ s.outLen = 33 ∨ s.outLen = 64
  /-- Every byte of OUT at or past OUT_LEN is 0x00 (R52). -/
  out_padded : ∀ i, i < 64 → s.outLen.toNat ≤ i → s.mem.read (0x0100 + i) = 0
  /-- ERR is 0 to 3: the codes 4 to 7 are never produced (R39, R180). -/
  err_legal : s.status.err.toNat ≤ 3
  /-- While BUSY, DONE, ERR, WARN and VOK are 0 (R51). -/
  busy_clear : s.phase.isBusy = true →
    s.status.done = false ∧ s.status.err = 0 ∧ s.status.warn = false ∧ s.status.vok = false
  /-- An error leaves no output and no valid signature (R52, R184). -/
  err_no_output : s.status.err ≠ 0 → s.outLen = 0 ∧ s.status.vok = false
  /-- VOK comes from a VERIFY, which writes no output (R38, R44). -/
  vok_no_output : s.status.vok = true → s.outLen = 0
  /-- "DONE = 0 with BUSY = 0 holds only after reset, before any command" (R41): everything reads as reset leaves it. -/
  fresh : s.phase = .idle → s.status.done = false → s.status = Status.reset ∧ s.outLen = 0

/-- What a completion leaves as it was (R52, R184): every byte outside OUT, the length registers of the inputs, OVR, the turns
to come and the words the host has received. -/
structure CompletionFrame (s t : State) : Prop where
  mem : ∀ a, ¬ (Buffer.out.base ≤ a ∧ a < Buffer.out.base + 64) → t.mem.read a = s.mem.read a
  skLen : t.skLen = s.skLen
  pkLen : t.pkLen = s.pkLen
  sigLen : t.sigLen = s.sigLen
  msgLen : t.msgLen = s.msgLen
  ovr : t.status.ovr = s.status.ovr
  turns : t.turns = s.turns
  replies : t.replies = s.replies

/-- OUT holds the byte string `o` and zeros after it, and OUT_LEN its length (R52). -/
def OutHolds (t : State) (o : List Byte) : Prop :=
  t.outLen = BitVec.ofNat 16 o.length ∧ ∀ i, i < 64 → t.mem.read (Buffer.out.base + i) = o.getD i 0

/-- The engine is IDLE, DONE = 1, and ERR, WARN and VOK are as given (R52). -/
def Reports (t : State) (err : BitVec 3) (warn vok : Bool) : Prop :=
  t.phase = .idle ∧ t.status.done = true ∧ t.status.err = err ∧ t.status.warn = warn ∧ t.status.vok = vok

/-- The block completed with an error: no output, VOK = 0 (R184). -/
def Fails (t : State) (err : BitVec 3) (warn : Bool) : Prop := OutHolds t [] ∧ Reports t err warn false

/-- The equations of the primitive library that a signature's check rests on (R22, R25, R26), taken as a hypothesis wherever
a claim needs them (R27). -/
structure SignatureLaws (p : Prim) : Prop where
  /-- `ScalarReduce(B) = LE(B) mod ℓ` (R22). -/
  reduce : ∀ b : Bytes 32, (p.scalarReduce b).val = leNat b.toList % groupOrder
  /-- `s·B + h·(−A) = r·B` for `s = r + h·a` and `A = a·B` (R25, R26). -/
  cancel : ∀ (r h : Scalar) (a : Nat), p.doubleScalarVartime (p.scalarMulAdd r h a) h (p.baseMul a) = p.baseMul r.val

/-- `u` is the u-coordinate of the public key of the scalar `a`: under the sign bit of the compressed public point, the map
gives back that point (R124). -/
def KeyMatches (p : Prim) (u : Bytes 32) (a : Nat) : Prop :=
  p.montToEd u (highBit (p.compress (p.baseMul a))[31]) = some (p.baseMul a)

/-- A write to CMD: a command (R46). -/
def Turn.isCommand : Turn → Bool
  | .write a _ => wordAddr a == 0
  | .read _ => false
  | .engine => false
  | .reset => false

/-- A host transaction other than a CMD write: a read, or a write that only stores (R68). -/
def Turn.isDataAccess : Turn → Bool
  | .write a _ => wordAddr a != 0
  | .read _ => true
  | .engine => false
  | .reset => false

/-- The state but for the words the host has received. -/
def State.withoutReplies (s : State) : State := { s with replies := [] }

/-- `n` steps of the machine. -/
def run (n : Nat) (s : State) : Host.Outcome State Fault Refusal := Sys2Proof.core.run n s

end Sys2Proof.Machine
end

