-- ==== Sys2Proof/Certificates/Slice0/Obligations.lean ====
section
/-! DEFINITION. The statements for the provers, each from the numbered rules of spec/. -/

open Sys2Proof Sys2Proof.Machine

/-! Encoding. -/

/-- R82, R83: every command decodes from the word made of its fields. -/
def Obligations.DecodeOfEncode : Prop := ∀ i : Instr, decode (encode i) = .ok i

/-- R82, R83: a word decodes to a command exactly when it is that command's word, over all 2^32 words. -/
def Obligations.DecodeIffEncode : Prop := ∀ (w : Word) (i : Instr), decode w = .ok i ↔ w = encode i

/-- R82: the words of the opcode map, written out, decode to their commands. -/
def Obligations.OpcodeWordsDecode : Prop :=
  decode 0x00000001 = .ok .clamp ∧ decode 0x00000002 = .ok .encodePub ∧ decode 0x00000003 = .ok .decodePub ∧
  decode 0x00000004 = .ok (.edFromMont false) ∧ decode 0x00000104 = .ok (.edFromMont true) ∧
  decode 0x00000005 = .ok .sign ∧ decode 0x00000006 = .ok .verify

/-- R82: "At most one row matches any word." -/
def Obligations.OpcodeRowsDisjoint : Prop :=
  opcodeRows.Pairwise fun r r' => ∀ w : Word, ¬ (r.selects w = true ∧ r'.selects w = true)

/-- R84: the illegal words are those with OP = 0x00, OP in 0x07 to 0xFF, a RES bit, or S = 1 with an OP other than 0x04. -/
def Obligations.IllegalWordsExactly : Prop :=
  ∀ w : Word, (∃ e, decode w = .error e) ↔
    (w.extractLsb' 0 8 = 0 ∨ 7 ≤ (w.extractLsb' 0 8).toNat ∨ w.extractLsb' 9 23 ≠ 0 ∨
      (w.getLsbD 8 = true ∧ w.extractLsb' 0 8 ≠ 0x04))

/-! The step. -/

/-- R52, R83: when the engine has the turn while BUSY and `snap.CMD` decodes to `i`, the step is `exec i`, the engine's turn
taken from the list. -/
def Obligations.StepRunsDecodedCommand : Prop :=
  ∀ (s : State) (x : Snapshot) (i : Instr) (rest : List Turn), s.phase = .busy x → decode x.cmd = .ok i →
    (s.turns = [] → step s = exec i s) ∧ (s.turns = .engine :: rest → step s = exec i { s with turns := rest })

/-- R51, R52: a table word placed by `withFetchWord` is completed by the very next step. That it is the very next one is the
model's choice, R52 saying "may take one step" and R218 any latency: `withFetchWord` clears the pending turns (log 11), and
an empty list of turns gives the engine the turn (log 1). -/
def Obligations.FetchedWordRunsNext : Prop :=
  ∀ (s : State) (nbits w : Nat) (i : Instr), decodeTableWord nbits w = some i →
    step (s.withFetchWord nbits w) = exec i (s.withFetchWord nbits w)

/-- R52 "The step always exists while BUSY", R61 "no bus-error response exists": every state has a next state. R36, R197
"Only reset changes state without a host transaction or a completion": an IDLE engine's turn leaves every flag, register and
byte as it was, and takes the turn from the list. That the engine can have a turn while IDLE is the model's reading (log 8). -/
def Obligations.StepAlwaysAnswersNext : Prop :=
  ∀ s : State, (∃ t, step s = .next t) ∧
    (s.phase = .idle → s.turns.head? = none ∨ s.turns.head? = some .engine →
      step s = .next { s with turns := s.turns.tail })

/-- R52: a command completes "When `phase = BUSY`" only. That its meaning stops by the name `engineIdle` while IDLE is the
model's choice (log 7). -/
def Obligations.IdleEngineStopsByName : Prop :=
  ∀ (i : Instr) (s : State), s.phase = .idle → exec i s = .fault .engineIdle

/-- R84, R183, R184: the completion of an illegal word reports IllegalCommand, with no output, and changes nothing else,
whether the engine's turn is the first of the list or no turn is pending. That the engine has the turn when the list is empty
is the model's choice (log 1); the word is no instruction of `Instr`, so the step completes it itself (log 9). -/
def Obligations.IllegalWordCompletes : Prop :=
  ∀ (s : State) (x : Snapshot) (e : Illegal) (rest : List Turn), s.phase = .busy x → decode x.cmd = .error e →
    (s.turns = [] → ∃ t, step s = .next t ∧ Fails t 3 false ∧ CompletionFrame s t) ∧
    (s.turns = .engine :: rest →
      ∃ t, step s = .next t ∧ Fails t 3 false ∧ CompletionFrame { s with turns := rest } t)

/-! The commands: each completes, with its result and its frame. -/

/-- R102 with R101: CLAMP with SK_LEN = 32 completes with the clamped scalar, written byte by byte. -/
def Obligations.ClampCompletes : Prop :=
  ∀ (s : State) (x : Snapshot), s.phase = .busy x → x.skLen = 32 →
    ∃ t, exec .clamp s = .next t ∧
      OutHolds t ((x.mem.read 0x20 &&& 0xF8) :: (List.range 30).map (fun k => x.mem.read (0x21 + k)) ++
        [(x.mem.read 0x3F &&& 0x7F) ||| 0x40]) ∧
      Reports t 0 false false ∧ CompletionFrame s t

/-- R102, R181: CLAMP with SK_LEN ≠ 32 completes with InvalidArgument. -/
def Obligations.ClampBadLengthFails : Prop :=
  ∀ (s : State) (x : Snapshot), s.phase = .busy x → x.skLen ≠ 32 →
    ∃ t, exec .clamp s = .next t ∧ Fails t 1 false ∧ CompletionFrame s t

/-- R106 with R105: ENCODE_PUB completes with 0x05 and the 32 bytes of U, whatever they are. -/
def Obligations.EncodePubCompletes : Prop :=
  ∀ (s : State) (x : Snapshot), s.phase = .busy x →
    ∃ t, exec .encodePub s = .next t ∧
      OutHolds t (0x05 :: (List.range 32).map fun k => x.mem.read (0xC0 + k)) ∧
      Reports t 0 false false ∧ CompletionFrame s t

/-- R108 with R107: DECODE_PUB of a tagged key or of a legacy key completes with its 32-byte u, WARN on the legacy form. -/
def Obligations.DecodePubCompletes : Prop :=
  ∀ (s : State) (x : Snapshot), s.phase = .busy x →
    (x.pkLen = 33 → x.mem.read 0x40 = 0x05 →
      ∃ t, exec .decodePub s = .next t ∧ OutHolds t ((List.range 32).map fun k => x.mem.read (0x41 + k)) ∧
        Reports t 0 false false ∧ CompletionFrame s t) ∧
    (x.pkLen = 32 →
      ∃ t, exec .decodePub s = .next t ∧ OutHolds t ((List.range 32).map fun k => x.mem.read (0x40 + k)) ∧
        Reports t 0 true false ∧ CompletionFrame s t)

/-- R108, R181, R182, R187: DECODE_PUB's errors; the length is checked before the tag. -/
def Obligations.DecodePubErrors : Prop :=
  ∀ (s : State) (x : Snapshot), s.phase = .busy x →
    (x.pkLen ≠ 32 ∧ x.pkLen ≠ 33 → ∃ t, exec .decodePub s = .next t ∧ Fails t 1 false ∧ CompletionFrame s t) ∧
    (x.pkLen = 33 ∧ x.mem.read 0x40 ≠ 0x05 →
      ∃ t, exec .decodePub s = .next t ∧ Fails t 2 false ∧ CompletionFrame s t)

/-- R122: ED_FROM_MONT completes with the compressed point of U under S, or with InvalidKeyFormat when there is none. -/
def Obligations.EdFromMontCompletes : Prop :=
  ∀ (s : State) (x : Snapshot) (sign : Bool), s.phase = .busy x →
    ∃ t, exec (.edFromMont sign) s = .next t ∧ CompletionFrame s t ∧
      match Config.impl.prim.montToEd (x.mem.readVec 0xC0 32) sign with
      | some P => OutHolds t (Config.impl.prim.compress P).toList ∧ Reports t 0 false false
      | none => Fails t 2 false

/-- R142 to R149: SIGN with legal lengths completes with the 64-byte signature of the seven steps, `s = (r + h·a) mod ℓ`
among them (R147). The value of `ℓ` is the spec's, marked there as general knowledge (log 4). -/
def Obligations.SignCompletes : Prop :=
  ∀ (s : State) (x : Snapshot), s.phase = .busy x → x.msgLen.toNat ≤ Config.impl.msgMax → x.skLen = 32 →
    let p := Config.impl.prim
    let msg := (List.range x.msgLen.toNat).map fun k => x.mem.read (0x1000 + k)
    let aBytes := clamp (x.mem.readVec 0x20 32)
    let a := leNat aBytes.toList
    let pub := p.compress (p.baseMul a)
    let key := if Config.impl.nonceKeyForm = .clamped then aBytes else enc32 (a % groupOrder)
    let r := p.scalarReduceWide (p.sha512 (key.toList ++ msg))
    let R := p.compress (p.baseMul r.val)
    let h := p.scalarReduceWide (p.sha512 (R.toList ++ pub.toList ++ msg))
    let S := enc32 ((r.val + h.val * a) % groupOrder)
    ∃ t, exec .sign s = .next t ∧
      OutHolds t (R.toList ++ S.toList.take 31 ++ [S[31] ||| (if pub[31].getLsbD 7 then 0x80 else 0x00)]) ∧
      Reports t 0 false false ∧ CompletionFrame s t

/-- R141, R149, R181: SIGN with a message longer than MSG_MAX or with SK_LEN ≠ 32 completes with InvalidArgument. -/
def Obligations.SignBadLengthFails : Prop :=
  ∀ (s : State) (x : Snapshot), s.phase = .busy x → (Config.impl.msgMax < x.msgLen.toNat ∨ x.skLen ≠ 32) →
    ∃ t, exec .sign s = .next t ∧ Fails t 1 false ∧ CompletionFrame s t

/-- R162 to R169: VERIFY with legal lengths and a well-formed key completes with the boolean of the eight steps in VOK and
no output, or with InvalidKeyFormat when the map yields no point; WARN is 1 exactly for a legacy key. The reduced s and
`s·B + h·(−A)` are written out (R22, R25). The value of `ℓ` is the spec's, marked there as general knowledge (log 4). -/
def Obligations.VerifyCompletes : Prop :=
  ∀ (s : State) (x : Snapshot), s.phase = .busy x → x.msgLen.toNat ≤ Config.impl.msgMax → x.sigLen = 64 →
    (x.pkLen = 33 ∧ x.mem.read 0x40 = 0x05) ∨ x.pkLen = 32 →
    let p := Config.impl.prim
    let msg := (List.range x.msgLen.toNat).map fun k => x.mem.read (0x1000 + k)
    let u : Bytes 32 := if x.pkLen = 33 then x.mem.readVec 0x41 32 else x.mem.readVec 0x40 32
    let b := (x.mem.read 0xBF).getLsbD 7
    let R : Bytes 32 := x.mem.readVec 0x80 32
    let S : Bytes 32 := (x.mem.readVec 0xA0 32).set 31 (x.mem.read 0xBF &&& 0x7F)
    ∃ t, exec .verify s = .next t ∧ CompletionFrame s t ∧
      match p.montToEd u b with
      | none => Fails t 2 (decide (x.pkLen = 32))
      | some A =>
        let h := p.scalarReduceWide (p.sha512 (R.toList ++ (p.compress A).toList ++ msg))
        let P := p.add (p.baseMul (leNat S.toList % groupOrder)) (multiple p.add (p.baseMul 0) (p.neg A) h.val)
        OutHolds t [] ∧ Reports t 0 (decide (x.pkLen = 32)) (decide (p.compress P = R))

/-- R161, R163, R181, R182, R187: VERIFY's errors before the map, in the order of the checks. -/
def Obligations.VerifyErrorsInOrder : Prop :=
  ∀ (s : State) (x : Snapshot), s.phase = .busy x →
    (Config.impl.msgMax < x.msgLen.toNat ∨ x.sigLen ≠ 64 ∨ (x.pkLen ≠ 32 ∧ x.pkLen ≠ 33) →
      ∃ t, exec .verify s = .next t ∧ Fails t 1 false ∧ CompletionFrame s t) ∧
    (x.msgLen.toNat ≤ Config.impl.msgMax ∧ x.sigLen = 64 ∧ x.pkLen = 33 ∧ x.mem.read 0x40 ≠ 0x05 →
      ∃ t, exec .verify s = .next t ∧ Fails t 2 false ∧ CompletionFrame s t)

/-- R49, R181, R213: a command issued right after reset, without setting its lengths, fails with InvalidArgument. -/
def Obligations.AfterResetLengthsFail : Prop :=
  ∀ i : Instr, i = .clamp ∨ i = .decodePub ∨ i = .sign ∨ i = .verify →
    ∃ t, run 2 { State.reset with turns := [.write 0 (encode i), .engine] } = .next t ∧ Fails t 1 false

/-! The functions of the rules. -/

/-- R101: the clamp, byte by byte. -/
def Obligations.ClampBytes : Prop :=
  ∀ x : Bytes 32, (clamp x)[0] = x[0] &&& 0xF8 ∧ (∀ i : Fin 32, i.val ≠ 0 → i.val ≠ 31 → (clamp x)[i] = x[i]) ∧
    (clamp x)[31] = (x[31] &&& 0x7F) ||| 0x40

/-- R104: the clamp as a multiplexer over the 256 bits `j = 8·i + k`. -/
def Obligations.ClampMultiplexer : Prop :=
  ∀ (x : Bytes 32) (i : Fin 32) (k : Nat), k < 8 →
    (clamp x)[i].getLsbD k =
      if 8 * i.val + k < 3 then false else if 8 * i.val + k = 254 then true
      else if 8 * i.val + k = 255 then false else x[i].getLsbD k

/-- R103: the clamp is idempotent, and `LE(Clamp(x))` is a multiple of 8 in `[2^254, 2^255 − 8]`. -/
def Obligations.ClampIdempotentInRange : Prop :=
  ∀ x : Bytes 32, clamp (clamp x) = clamp x ∧ leNat (clamp x).toList % 8 = 0 ∧
    2 ^ 254 ≤ leNat (clamp x).toList ∧ leNat (clamp x).toList ≤ 2 ^ 255 - 8

/-- R107: `DecodePublic`, case by case. -/
def Obligations.DecodePublicCases : Prop :=
  ∀ (pk : Bytes 33) (n : Half),
    (n = 33 → pk[0] ≠ 0x05 → decodePublic pk n = .err .invalidKeyFormat) ∧
    (n = 33 → pk[0] = 0x05 → decodePublic pk n = .ok (Vector.ofFn fun i : Fin 32 => pk[i.val + 1]) false) ∧
    (n = 32 → decodePublic pk n = .ok (Vector.ofFn fun i : Fin 32 => pk[i.val]) true) ∧
    (n ≠ 32 → n ≠ 33 → decodePublic pk n = .err .invalidArgument)

/-- R109: lengths 31 and 34 fail, a legacy key gives the u of the tagged key whatever byte follows it, and decoding undoes
encoding. -/
def Obligations.DecodePublicProperties : Prop :=
  ∀ (u : Bytes 32) (pad tag : Byte) (pk : Bytes 33),
    decodePublic pk 31 = .err .invalidArgument ∧ decodePublic pk 34 = .err .invalidArgument ∧
    (pk[0] = tag → tag ≠ 0x05 → decodePublic pk 33 = .err .invalidKeyFormat) ∧
    decodePublic (u.push pad) 32 = .ok u true ∧ decodePublic (encodePublic u) 33 = .ok u false

/-- R120: the sign bit is bit 7 of byte 63, and the working copy has that bit cleared and every other bit as it was. -/
def Obligations.SignRecoverSplits : Prop :=
  ∀ sig : Bytes 64, (signRecover sig).1 = sig[63].getLsbD 7 ∧ (signRecover sig).2[63] = sig[63] &&& 0x7F ∧
    ∀ i : Fin 64, i.val ≠ 63 → (signRecover sig).2[i] = sig[i]

/-- R153: sign recovery on what SIGN outputs gives back the captured sign bit, the bytes of R and the bytes of s.
It rests on bit 7 of `enc32(s)[31]` being 0 for `s < ℓ`, with the value of `ℓ` that R21 and R148 mark as general knowledge
(log 4). -/
def Obligations.SignatureSplitsBack : Prop :=
  ∀ (R : Bytes 32) (s : Scalar) (b : Bool),
    signRecover (foldSignature R s b) = (b, (R ++ enc32 s.val : Vector Byte (32 + 32)))

/-- R152: SIGN's answer depends on the private scalar only through its clamp. -/
def Obligations.SignSeesClampOnly : Prop :=
  ∀ (c : Config) (x y : Snapshot), clamp x.sk = clamp y.sk → x.skLen = y.skLen → x.msgLen = y.msgLen →
    (∀ k, k < x.msgLen.toNat → x.mem.read (0x1000 + k) = y.mem.read (0x1000 + k)) → signCmd c x = signCmd c y

/-- R150, R85: SIGN is a function of SK, its length and the message; bytes of MSG at and past MSG_LEN, PK, SIG and U do not
reach it. -/
def Obligations.SignReadsOnlyItsInputs : Prop :=
  ∀ (s s' : State) (x y : Snapshot), s.phase = .busy x → s'.phase = .busy y → x.skLen = y.skLen →
    x.msgLen = y.msgLen → (∀ a, 0x20 ≤ a → a < 0x40 → x.mem.read a = y.mem.read a) →
    (∀ k, k < x.msgLen.toNat → x.mem.read (0x1000 + k) = y.mem.read (0x1000 + k)) →
    ∃ t t', exec .sign s = .next t ∧ exec .sign s' = .next t' ∧ t.outLen = t'.outLen ∧ t.status.err = t'.status.err ∧
      ∀ i, i < 64 → t.mem.read (Buffer.out.base + i) = t'.mem.read (Buffer.out.base + i)

/-- R173: for every configuration whose primitives meet the named equations, the signature SIGN makes of a message under a
private scalar verifies under the public key of that scalar: ERR = 0, WARN = 0, VOK = 1. That s survives the folding of the
sign bit rests on `s < ℓ < 2^255`, with the value of `ℓ` that R21 marks as general knowledge (log 4). -/
def Obligations.SignThenVerifyAccepts : Prop :=
  ∀ (c : Config) (x y : Snapshot), SignatureLaws c.prim → x.msgLen.toNat ≤ c.msgMax → x.skLen = 32 →
    y.msg = x.msg → y.msgLen = x.msgLen → y.sigLen = 64 → y.pkLen = 33 →
    (∃ u : Bytes 32, y.pk = encodePublic u ∧ KeyMatches c.prim u (leNat (clamp x.sk).toList)) →
    signCmd c x = .ok y.sig.toList false false → verifyCmd c y = .ok [] false true

/-- R165, R172: under `ScalarReduce(B) = LE(B) mod ℓ`, two signatures with the same R and sign bit whose s fields agree mod
`ℓ` verify alike: s is reduced, not rejected. The value of `ℓ` is the spec's, marked there as
general knowledge (log 4). -/
def Obligations.VerifyReducesS : Prop :=
  ∀ (c : Config) (x y : Snapshot), (∀ b : Bytes 32, (c.prim.scalarReduce b).val = leNat b.toList % groupOrder) →
    x.msgLen = y.msgLen → x.msg = y.msg → x.sigLen = y.sigLen → x.pkLen = y.pkLen → x.pk = y.pk →
    (∀ i : Fin 32, x.sig[i.val] = y.sig[i.val]) → x.sig[63].getLsbD 7 = y.sig[63].getLsbD 7 →
    leNat (sigS (signRecover x.sig).2).toList % groupOrder = leNat (sigS (signRecover y.sig).2).toList % groupOrder →
    verifyCmd c x = verifyCmd c y

/-- R109, R172: a legacy key verifies as the tagged key with the same u, with WARN = 1 in place of 0. -/
def Obligations.LegacyKeyVerifiesAlike : Prop :=
  ∀ (c : Config) (x y : Snapshot) (u : Bytes 32) (pad : Byte), x.pkLen = 32 → x.pk = u.push pad →
    y.pkLen = 33 → y.pk = encodePublic u → x.msgLen = y.msgLen → x.msg = y.msg → x.sigLen = y.sigLen → x.sig = y.sig →
    x.sigLen = 64 → x.msgLen.toNat ≤ c.msgMax →
    (∃ o v, verifyCmd c x = .ok o true v ∧ verifyCmd c y = .ok o false v) ∨
    (∃ e, verifyCmd c x = .err e true ∧ verifyCmd c y = .err e false)

/-- R24, R123: the reference map ignores bit 255 of u. The reference record is the
model's writing of definitions the spec marks as general knowledge (log 6). -/
def Obligations.ReferenceMapIgnoresTopBit : Prop :=
  ∀ (x0 : X0Sign1) (u : Bytes 32) (sign : Bool),
    Reference.montToEd x0 (u.set 31 (u[31] ^^^ 0x80)) sign = Reference.montToEd x0 u sign

/-- R174, C5: under the reference record, flipping bit 255 of u leaves VERIFY's answer as it was: bit 7 of PK[32] for a 33-byte
key, of PK[31] for a legacy key. The reference record is the model's writing of definitions the spec marks as general
knowledge (log 6). -/
def Obligations.ReferenceVerifyIgnoresTopBit : Prop :=
  ∀ (w : Fin 0x3C00) (f : NonceKeyForm) (x0 : X0Sign1) (x y : Snapshot), y.pkLen = x.pkLen → y.msgLen = x.msgLen →
    y.msg = x.msg → y.sigLen = x.sigLen → y.sig = x.sig →
    (x.pkLen = 33 ∧ y.pk = x.pk.set 32 (x.pk[32] ^^^ 0x80)) ∨ (x.pkLen = 32 ∧ y.pk = x.pk.set 31 (x.pk[31] ^^^ 0x80)) →
    verifyCmd (Reference.config w f x0) y = verifyCmd (Reference.config w f x0) x

/-- R24, R123: under the reference record u = p − 1 has no image, with either sign bit, and u = 0 has none exactly for S = 1
under X0_SIGN1 = REJECT. The reference record is the
model's writing of definitions the spec marks as general knowledge (log 6). -/
def Obligations.ReferenceMapCorners : Prop :=
  (∀ (x0 : X0Sign1) (sign : Bool), Reference.montToEd x0 (enc32 (Reference.fieldPrime - 1)) sign = none) ∧
  (∀ (x0 : X0Sign1) (sign : Bool),
    Reference.montToEd x0 (enc32 0) sign = none ↔ sign = true ∧ x0 = .reject)

/-! The host port and the life of a command. -/

/-- R49: what reset leaves: IDLE, STATUS 0, every length 0, every byte and so every word of the register space 0. -/
def Obligations.ResetReadsZero : Prop :=
  State.reset.phase = .idle ∧ State.reset.status = ⟨false, 0, false, false, false⟩ ∧
    State.reset.skLen = 0 ∧ State.reset.pkLen = 0 ∧ State.reset.sigLen = 0 ∧ State.reset.msgLen = 0 ∧
    State.reset.outLen = 0 ∧ (∀ a, State.reset.mem.read a = 0) ∧ ∀ (c : Config) (a : Addr), portRead c State.reset a = 0

/-- R210, R211: a reset, BUSY or not, leaves the block in the state after reset: no snapshot, DONE = 0. The turns to come and
the words received are the model's own and stay (log 19). -/
def Obligations.ResetTurnRestores : Prop :=
  ∀ (s : State) (rest : List Turn), s.turns = .reset :: rest →
    step s = .next { State.reset with turns := rest, replies := s.replies }

/-- R51: a CMD write while IDLE is accepted, legal or not: the snapshot holds the word, the lengths and the input buffers,
STATUS's fields clear, BUSY; OUT, OUT_LEN and the inputs stay. -/
def Obligations.AcceptanceSnapshots : Prop :=
  ∀ (s : State) (a : Addr) (w : Word) (rest : List Turn), s.phase = .idle → s.turns = .write a w :: rest → wordAddr a = 0 →
    ∃ x t, step s = .next t ∧ t.phase = .busy x ∧ x.cmd = w ∧ x.skLen = s.skLen ∧ x.pkLen = s.pkLen ∧
      x.sigLen = s.sigLen ∧ x.msgLen = s.msgLen ∧
      (∀ (b : Buffer) (k : Nat), b ≠ .out → k < b.size Config.impl →
        x.mem.read (b.base + k) = s.mem.read (b.base + k)) ∧
      t = { s with phase := .busy x, status := ⟨false, 0, false, false, false⟩, turns := rest }

/-- R53: a CMD write while BUSY sets OVR and changes nothing else; the word is dropped. -/
def Obligations.BusyCommandDropped : Prop :=
  ∀ (s : State) (x : Snapshot) (a : Addr) (w : Word) (rest : List Turn), s.phase = .busy x →
    s.turns = .write a w :: rest → wordAddr a = 0 →
    step s = .next { s with status := { s.status with ovr := true }, turns := rest }

/-- R50: a length register keeps `wdata[15:0]` and reads zero-extended; nothing else changes. -/
def Obligations.LengthRegistersHoldHalves : Prop :=
  ∀ (c : Config) (s : State) (v : Word),
    portWrite c s 0x0008 v = { s with skLen := v.extractLsb' 0 16 } ∧
    portWrite c s 0x000C v = { s with pkLen := v.extractLsb' 0 16 } ∧
    portWrite c s 0x0010 v = { s with sigLen := v.extractLsb' 0 16 } ∧
    portWrite c s 0x0014 v = { s with msgLen := v.extractLsb' 0 16 } ∧
    portRead c s 0x0008 = s.skLen.setWidth 32 ∧ portRead c s 0x000C = s.pkLen.setWidth 32 ∧
    portRead c s 0x0010 = s.sigLen.setWidth 32 ∧ portRead c s 0x0014 = s.msgLen.setWidth 32 ∧
    portRead c s 0x0018 = s.outLen.setWidth 32

/-- R39, R40: the bits of the word a read of STATUS returns; BUSY is 1 exactly while the phase is BUSY. -/
def Obligations.StatusWordBits : Prop :=
  ∀ (c : Config) (s : State),
    let w := portRead c s 0x0004
    w.getLsbD 0 = s.phase.isBusy ∧ w.getLsbD 1 = s.status.done ∧ w.extractLsb' 2 3 = s.status.err ∧
      w.getLsbD 5 = s.status.warn ∧ w.getLsbD 6 = s.status.vok ∧ w.getLsbD 7 = s.status.ovr ∧ w.extractLsb' 8 24 = 0

/-- R61, R73: address bits 1:0 are ignored by reads and writes. -/
def Obligations.LowAddressBitsIgnored : Prop :=
  ∀ (c : Config) (s : State) (a a' : Addr) (v : Word), a.toNat / 4 = a'.toNat / 4 →
    portRead c s a = portRead c s a' ∧ portWrite c s a v = portWrite c s a' v

/-- R62, R63: a write to the word of a writable buffer stores the word's four bytes little-endian in the buffer's bytes, and
changes no other byte and no register. -/
def Obligations.BufferWriteStoresBytes : Prop :=
  ∀ (c : Config) (s : State) (a : Addr) (v : Word) (b : Buffer), b ≠ .out →
    b.base ≤ wordAddr a → wordAddr a < b.base + b.size c →
    ∃ m, portWrite c s a v = { s with mem := m } ∧
      ∀ x, m.read x = if wordAddr a ≤ x ∧ x < wordAddr a + 4 ∧ x < b.base + b.size c
        then v.extractLsb' (8 * (x - wordAddr a)) 8 else s.mem.read x

/-- R62, R69: a read of a writable word returns what the last write to it stored; word 0x0060, which holds one byte, is R65's. -/
def Obligations.ReadReturnsLastWrite : Prop :=
  ∀ (c : Config) (s : State) (a : Addr) (v : Word) (b : Buffer), b ≠ .out →
    b.base ≤ wordAddr a → wordAddr a + 4 ≤ b.base + b.size c → portRead c (portWrite c s a v) a = v

/-- R65: word 0x0060 is PK[32] in bits 7:0; a write sets that byte only, a read returns it zero-extended. -/
def Obligations.LastKeyByteWord : Prop :=
  ∀ (c : Config) (s : State) (v : Word),
    portRead c s 0x0060 = (s.mem.read 0x60).setWidth 32 ∧
    ∃ m, portWrite c s 0x0060 v = { s with mem := m } ∧
      ∀ x, m.read x = if x = 0x60 then v.extractLsb' 0 8 else s.mem.read x

/-- R64: writes to STATUS, OUT_LEN, OUT and to words outside the map are ignored; words outside the map read 0. -/
def Obligations.ReadOnlyAndReserved : Prop :=
  ∀ (c : Config) (s : State) (a : Addr) (v : Word),
    (wordAddr a = 0x0004 ∨ wordAddr a = 0x0018 → portWrite c s a v = s) ∧
    (0x0100 ≤ wordAddr a ∧ wordAddr a < 0x0140 → portWrite c s a v = s) ∧
    (wordAddr a = 0x001C ∨ (0x0064 ≤ wordAddr a ∧ wordAddr a < 0x0080) ∨ (0x00E0 ≤ wordAddr a ∧ wordAddr a < 0x0100) ∨
        (0x0140 ≤ wordAddr a ∧ wordAddr a < 0x1000) ∨ 0x1000 + c.msgMax ≤ wordAddr a →
      portRead c s a = 0 ∧ portWrite c s a v = s)

/-- R68, R46: a host read gives its word to the host and changes nothing else; a read of CMD gives 0. The words received are the model's
own field (log 2). -/
def Obligations.ReadsHaveNoSideEffect : Prop :=
  ∀ (s : State) (a : Addr) (rest : List Turn), s.turns = .read a :: rest →
    step s = .next { s with turns := rest, replies := portRead Config.impl s a :: s.replies } ∧
      (wordAddr a = 0 → portRead Config.impl s a = 0)

/-- R38: "Only a completion step (rule R52) and reset write them": a step that changes OUT_LEN or a byte of OUT is one in
which the engine, BUSY, has the turn, or a reset. -/
def Obligations.OutputWrittenByCompletionOrReset : Prop :=
  ∀ s t : State, step s = .next t →
    (t.outLen ≠ s.outLen ∨ ∃ i, i < 64 ∧ t.mem.read (0x0100 + i) ≠ s.mem.read (0x0100 + i)) →
    (s.phase.isBusy = true ∧ (s.turns.head? = none ∨ s.turns.head? = some .engine)) ∨ s.turns.head? = some .reset

/-- R45, R53: OVR comes to be 1 only by a CMD write while BUSY. -/
def Obligations.OverrunOnlyFromBusyCommand : Prop :=
  ∀ s t : State, step s = .next t → s.status.ovr = false → t.status.ovr = true →
    s.phase.isBusy = true ∧ ∃ a v, s.turns.head? = some (.write a v) ∧ wordAddr a = 0

/-- R51, R52, R210: the engine starts only by a CMD write, and stops only by its own turn or a reset; no other step touches
the snapshot. -/
def Obligations.PhaseChangesOnlyByItsEvents : Prop :=
  ∀ s t : State, step s = .next t →
    (s.phase = .idle → t.phase ≠ .idle → ∃ a v, s.turns.head? = some (.write a v) ∧ wordAddr a = 0) ∧
    (∀ x, s.phase = .busy x → t.phase = .busy x ∨
      (t.phase = .idle ∧ (s.turns.head? = none ∨ s.turns.head? = some .engine ∨ s.turns.head? = some .reset)))

/-- R30, R52: no step but a host's writes and reset touches an input buffer or a length register, and a command's inputs are
not cleared. -/
def Obligations.InputsWrittenByHostOnly : Prop :=
  ∀ s t : State, step s = .next t → (∀ a v, s.turns.head? ≠ some (.write a v)) → s.turns.head? ≠ some .reset →
    t.skLen = s.skLen ∧ t.pkLen = s.pkLen ∧ t.sigLen = s.sigLen ∧ t.msgLen = s.msgLen ∧
      ∀ a, ¬ (0x0100 ≤ a ∧ a < 0x0140) → t.mem.read a = s.mem.read a

/-- R48: while a command runs, what the host reads does not depend on the snapshot: over any turns but the engine's and
reset, the words received are the same whatever snapshots the engines hold. The words received are the model's own
field (log 2). -/
def Obligations.SnapshotIsHidden : Prop :=
  ∀ (n : Nat) (s t t' : State) (x y : Snapshot), s.phase = .busy x → n ≤ s.turns.length →
    (∀ turn ∈ s.turns, turn ≠ .engine ∧ turn ≠ .reset) →
    run n s = .next t → run n { s with phase := .busy y } = .next t' → t'.replies = t.replies

/-- R71, R216, R218: the result does not depend on when the engine completes. For a BUSY block in canonical form and any
reads and data writes of the host, completing after them and completing before them give the same state, but for the words
the host's reads returned. The list of turns is the model's own (log 1). -/
def Obligations.ResultIndependentOfLatency : Prop :=
  ∀ (s : State) (x : Snapshot) (ts : List Turn), s.phase = .busy x → s.mem.wf →
    (∀ turn ∈ ts, turn.isDataAccess = true) →
    ∃ t t', run (ts.length + 1) { s with turns := ts ++ [.engine] } = .next t ∧
      run (ts.length + 1) { s with turns := .engine :: ts } = .next t' ∧ t.withoutReplies = t'.withoutReplies

/-- R218, R52: a BUSY block whose pending turns hold no reset completes within as many steps as there are turns, and one. That the engine has the turn when no
other is pending is the model's choice (log 1). -/
def Obligations.BusyBlockCompletes : Prop :=
  ∀ (s : State) (x : Snapshot), s.phase = .busy x → (∀ turn ∈ s.turns, turn ≠ .reset) →
    ∃ n t, n ≤ s.turns.length + 1 ∧ run n s = .next t ∧ t.phase = .idle ∧ t.status.done = true

/-- R87, R88: a host inside a `poll`, at the read of STATUS after the label, goes back to that label when the STATUS it reads has
BUSY = 1, and leaves the loop when it has BUSY = 0. The poll's label is the first of its number in the program: where a branch
goes whose label stands twice or nowhere is the model's choice (log 18). -/
def Obligations.PollWaitsWhileBusy : Prop :=
  ∀ (prog : List HostStmt) (h : HostRun) (k t l : Nat),
    prog[k]? = some (.label l) → (∀ j, j < k → prog[j]? ≠ some (.label l)) →
    prog[k + 1]? = some (.rd (regAddr .status) t) → prog[k + 2]? = some (.bnz t 0x1 l) → h.pc = k + 1 →
    ∃ h1 h2, h.hostStep prog = .next h1 ∧ h1.hostStep prog = .next h2 ∧
      h2.block.phase = h.block.phase ∧ h2.block.mem = h.block.mem ∧ h2.block.status = h.block.status ∧
      h2.pc = if h.block.phase.isBusy then k else k + 3

/-- R88, R51: a host's `cmd` on an IDLE block starts that command. -/
def Obligations.HostCommandStarts : Prop :=
  ∀ (prog : List HostStmt) (h : HostRun) (i : Instr) (st : HostStmt), (HostPseudo.cmd i).expand = [st] →
    prog[h.pc]? = some st → h.block.phase = .idle →
    ∃ h' x, h.hostStep prog = .next h' ∧ h'.pc = h.pc + 1 ∧ h'.block.phase = .busy x ∧ decode x.cmd = .ok i

/-! Invariants. -/

/-- R49: the memory after reset is in canonical form, and OUT, OUT_LEN and STATUS agree. -/
def Obligations.ResetIsWellFormed : Prop := State.reset.memoriesWf Config.impl ∧ State.reset.ResultConsistent

/-- R30, R63, R64: every step keeps the memories canonical and inside the buffers, the snapshot's inside the input buffers. -/
def Obligations.StepKeepsMemoriesWf : Prop :=
  ∀ s t : State, s.memoriesWf Config.impl → step s = .next t → t.memoriesWf Config.impl

/-- R38 to R44, R51, R52, R180, R184: every step keeps OUT, OUT_LEN and STATUS in agreement. -/
def Obligations.StepKeepsResultConsistent : Prop :=
  ∀ s t : State, s.ResultConsistent → step s = .next t → t.ResultConsistent
end

