-- ==== Sys2Proof/Laws/Bytes.lean ====
section
/-! SUPPORT. Little-endian integers and the packing of words. -/

namespace Sys2Proof.Machine

theorem leNat_lt (bs : List Byte) : leNat bs < 256 ^ bs.length := by
  induction bs with
  | nil => simp [leNat]
  | cons b bs ih =>
    have := b.isLt
    simp only [leNat, List.length_cons, Nat.pow_succ]
    omega

/-- The bytes of a number below `256 ^ n`, put together again. -/
theorem leNat_digits (n k : Nat) :
    leNat ((List.range n).map fun i => BitVec.ofNat 8 (k / 256 ^ i)) = k % 256 ^ n := by
  induction n generalizing k with
  | zero => simp [leNat, Nat.mod_one]
  | succ n ih =>
    rw [List.range_succ_eq_map, List.map_cons, List.map_map, leNat]
    have hfun : (fun i => BitVec.ofNat 8 (k / 256 ^ i)) ∘ Nat.succ = fun i => BitVec.ofNat 8 (k / 256 / 256 ^ i) := by
      funext i
      simp only [Function.comp_apply, Nat.succ_eq_add_one, Nat.pow_succ', Nat.div_div_eq_div_mul]
    rw [hfun, ih, Nat.pow_succ', Nat.mod_mul]
    simp

theorem enc32_toList (k : Nat) : (enc32 k).toList = (List.range 32).map fun i => BitVec.ofNat 8 (k / 256 ^ i) := by
  apply List.ext_getElem
  · simp
  · intro i h1 h2
    simp [enc32]

/-- `LE(enc32(k)) = k` for `k < 2^256` (R9). -/
theorem leNat_enc32 {k : Nat} (h : k < 2 ^ 256) : leNat (enc32 k).toList = k := by
  rw [enc32_toList, leNat_digits]
  exact Nat.mod_eq_of_lt (by norm_num at h ⊢; exact h)

@[simp] theorem enc32_getElem (k i : Nat) (h : i < 32) : (enc32 k)[i] = BitVec.ofNat 8 (k / 256 ^ i) := by simp [enc32]

/-- The top byte of an encoded residue mod `ℓ` is below 0x20, since `ℓ < 2^253` (R26). -/
theorem enc32_scalar_top (s : Scalar) : ((enc32 s.val)[31]).toNat < 0x20 := by
  have h : s.val < 0x20 * 256 ^ 31 := Nat.lt_trans s.isLt (by norm_num)
  have h2 : s.val / 256 ^ 31 < 0x20 := Nat.div_lt_of_lt_mul (by rw [Nat.mul_comm]; exact h)
  simp only [enc32_getElem, BitVec.toNat_ofNat]
  exact Nat.lt_of_le_of_lt (Nat.mod_le _ _) h2

/-- The bits of a packed word. -/
theorem packWord_getLsbD (b0 b1 b2 b3 : Byte) (i : Nat) :
    (packWord b0 b1 b2 b3).getLsbD i =
      if i < 8 then b0.getLsbD i else if i < 16 then b1.getLsbD (i - 8)
      else if i < 24 then b2.getLsbD (i - 16) else b3.getLsbD (i - 24) := by
  have h : (packWord b0 b1 b2 b3).getLsbD i = (b3 ++ b2 ++ b1 ++ b0 : BitVec (8 + 8 + 8 + 8)).getLsbD i := rfl
  rw [h, BitVec.getLsbD_append, BitVec.getLsbD_append, BitVec.getLsbD_append, Nat.sub_sub, Nat.sub_sub]
  split_ifs <;> first | rfl | omega

theorem byteOf_packWord (b0 b1 b2 b3 : Byte) :
    byteOf (packWord b0 b1 b2 b3) 0 = b0 ∧ byteOf (packWord b0 b1 b2 b3) 1 = b1 ∧
      byteOf (packWord b0 b1 b2 b3) 2 = b2 ∧ byteOf (packWord b0 b1 b2 b3) 3 = b3 := by
  refine ⟨?_, ?_, ?_, ?_⟩ <;> apply BitVec.eq_of_getLsbD_eq <;> intro i hi <;>
    rw [byteOf, BitVec.getLsbD_extractLsb', packWord_getLsbD]
  · simp [hi]
  · simp [hi, show 8 + i < 16 by omega]
  · simp [hi, show 16 + i < 24 by omega, show ¬ 16 + i < 8 by omega]
  · simp [hi, show ¬ 24 + i < 16 by omega, show ¬ 24 + i < 8 by omega]

@[simp] theorem byteOf_packWord_0 (b0 b1 b2 b3 : Byte) : byteOf (packWord b0 b1 b2 b3) 0 = b0 := (byteOf_packWord b0 b1 b2 b3).1
@[simp] theorem byteOf_packWord_1 (b0 b1 b2 b3 : Byte) : byteOf (packWord b0 b1 b2 b3) 1 = b1 := (byteOf_packWord b0 b1 b2 b3).2.1
@[simp] theorem byteOf_packWord_2 (b0 b1 b2 b3 : Byte) : byteOf (packWord b0 b1 b2 b3) 2 = b2 := (byteOf_packWord b0 b1 b2 b3).2.2.1
@[simp] theorem byteOf_packWord_3 (b0 b1 b2 b3 : Byte) : byteOf (packWord b0 b1 b2 b3) 3 = b3 := (byteOf_packWord b0 b1 b2 b3).2.2.2

/-- A word is the packing of its four bytes (R62). -/
theorem packWord_byteOf (v : Word) : packWord (byteOf v 0) (byteOf v 1) (byteOf v 2) (byteOf v 3) = v := by
  apply BitVec.eq_of_getLsbD_eq; intro i hi
  rw [packWord_getLsbD]
  simp only [byteOf, BitVec.getLsbD_extractLsb']
  split_ifs with h1 h2 h3
  · simp [h1]
  · simp [show i - 8 < 8 by omega, show 8 + (i - 8) = i by omega]
  · simp [show i - 16 < 8 by omega, show 16 + (i - 16) = i by omega]
  · simp [show i - 24 < 8 by omega, show 24 + (i - 24) = i by omega]

end Sys2Proof.Machine
end

