-- ==== Sys2Proof/Laws/Map.lean ====
section
/-! SUPPORT. The register map: which buffer or register an address belongs to. -/

namespace Sys2Proof.Machine

@[simp] theorem base_sk : Buffer.sk.base = 0x20 := rfl
@[simp] theorem base_pk : Buffer.pk.base = 0x40 := rfl
@[simp] theorem base_sig : Buffer.sig.base = 0x80 := rfl
@[simp] theorem base_u : Buffer.u.base = 0xC0 := rfl
@[simp] theorem base_out : Buffer.out.base = 0x100 := rfl
@[simp] theorem base_msg : Buffer.msg.base = 0x1000 := rfl
@[simp] theorem size_sk (c : Config) : Buffer.sk.size c = 32 := rfl
@[simp] theorem size_pk (c : Config) : Buffer.pk.size c = 33 := rfl
@[simp] theorem size_sig (c : Config) : Buffer.sig.size c = 64 := rfl
@[simp] theorem size_u (c : Config) : Buffer.u.size c = 32 := rfl
@[simp] theorem size_out (c : Config) : Buffer.out.size c = 64 := rfl
@[simp] theorem size_msg (c : Config) : Buffer.msg.size c = c.msgMax := rfl

/-- MSG_MAX is a legal value whatever the parameter is (R6). -/
theorem msgMax_legal (c : Config) : c.msgMax % 4 = 0 ∧ 4 ≤ c.msgMax ∧ c.msgMax ≤ 0xF000 := by
  have := c.msgWords.isLt
  unfold Config.msgMax
  omega

theorem holds_iff (c : Config) (b : Buffer) (a : Nat) : b.holds c a = true ↔ b.base ≤ a ∧ a < b.base + b.size c := by
  simp [Buffer.holds]

/-- The buffers do not overlap. -/
theorem holds_unique {c : Config} {b b' : Buffer} {a : Nat} (h : b.holds c a = true) (h' : b'.holds c a = true) : b = b' := by
  rw [holds_iff] at h h'
  cases b <;> cases b' <;> first | rfl | (simp at h h'; omega)

theorem bufferAt_eq_some {c : Config} {a : Nat} {b : Buffer} : bufferAt c a = some b ↔ b.holds c a = true := by
  constructor
  · intro h; simpa using List.find?_some h
  · intro h
    rw [bufferAt]
    cases hf : Buffer.all.find? (fun b => b.holds c a) with
    | none => exact absurd h (by simpa using List.find?_eq_none.1 hf b (by cases b <;> simp [Buffer.all]))
    | some b' => exact congrArg some (holds_unique (by simpa using List.find?_some hf) h)

theorem bufferAt_eq_some_iff {c : Config} {a : Nat} {b : Buffer} :
    bufferAt c a = some b ↔ b.base ≤ a ∧ a < b.base + b.size c := by
  rw [bufferAt_eq_some, holds_iff]

theorem bufferAt_eq_none_iff {c : Config} {a : Nat} :
    bufferAt c a = none ↔ ∀ b : Buffer, ¬ (b.base ≤ a ∧ a < b.base + b.size c) := by
  constructor
  · intro h b hb
    rw [bufferAt_eq_some_iff.2 hb] at h
    cases h
  · intro h
    cases hb : bufferAt c a with
    | none => rfl
    | some b => exact absurd (bufferAt_eq_some_iff.1 hb) (h b)

theorem regAt_eq_some_iff {w : Nat} {r : Reg} : regAt w = some r ↔ w = r.addr := by
  constructor
  · intro h
    have := List.find?_some h
    simp only [beq_iff_eq] at this
    exact this.symm
  · rintro rfl
    cases r <;> rfl

theorem regAt_eq_none_iff {w : Nat} : regAt w = none ↔ ∀ r : Reg, w ≠ r.addr := by
  constructor
  · intro h r hr
    rw [regAt_eq_some_iff.2 hr] at h
    cases h
  · intro h
    cases hr : regAt w with
    | none => rfl
    | some r => exact absurd (regAt_eq_some_iff.1 hr) (h r)

/-- Address bits 1:0 are ignored: the word address is the byte address less its remainder mod 4 (R61). -/
theorem wordAddr_eq (a : Addr) : wordAddr a = 4 * (a.toNat / 4) := by
  have h : ∀ n : Nat, n < 65536 → n &&& 65532 = 4 * (n / 4) := by
    intro n hn
    apply Nat.eq_of_testBit_eq
    intro i
    rw [show 4 * (n / 4) = (n >>> 2) <<< 2 by rw [Nat.shiftRight_eq_div_pow, Nat.shiftLeft_eq]; omega,
      show (65532 : Nat) = (2 ^ 14 - 1) <<< 2 by rfl, Nat.testBit_and, Nat.testBit_shiftLeft, Nat.testBit_shiftLeft,
      Nat.testBit_shiftRight, Nat.testBit_two_pow_sub_one]
    by_cases hi : 2 ≤ i
    · rw [show 2 + (i - 2) = i by omega]
      by_cases h14 : i - 2 < 14
      · simp [hi, h14]
      · have : n < 2 ^ i := Nat.lt_of_lt_of_le (show n < 2 ^ 16 by omega) (Nat.pow_le_pow_right (by omega) (by omega))
        simp [Nat.testBit_lt_two_pow this]
    · simp [hi]
  unfold wordAddr
  rw [BitVec.toNat_and]
  exact h a.toNat a.isLt

theorem wordAddr_lt (a : Addr) : wordAddr a + 4 ≤ 0x10000 := by
  have := wordAddr_eq a
  have := a.isLt
  omega

theorem wordAddr_mod (a : Addr) : wordAddr a % 4 = 0 := by
  have := wordAddr_eq a
  omega

end Sys2Proof.Machine
end

