-- ==== Sys2Proof/Laws/Memory.lean ====
section
/-! SUPPORT. Bytes of memory: what a read sees after each operation, and that every operation keeps the canonical form. -/

namespace Sys2Proof.Machine

@[simp] theorem Memory.read_nil (a : Nat) : Memory.read [] a = 0 := rfl

theorem Memory.read_cons (k : Nat) (b : Byte) (m : Memory) (a : Nat) :
    Memory.read ((k, b) :: m) a = if k = a then b else m.read a := rfl

/-- A read of an address no cell lists. -/
theorem Memory.read_eq_zero {m : Memory} {a : Nat} (h : ∀ c ∈ m, c.1 ≠ a) : m.read a = 0 := by
  induction m with
  | nil => rfl
  | cons c m ih =>
    rw [Memory.read_cons, if_neg (h c List.mem_cons_self)]
    exact ih fun d hd => h d (List.mem_cons_of_mem _ hd)

/-- A filter on addresses hides the bytes at the addresses it drops. -/
theorem Memory.read_filter (p : Nat → Bool) (m : Memory) (a : Nat) :
    Memory.read (m.filter fun c => p c.1) a = if p a then m.read a else 0 := by
  induction m with
  | nil => simp
  | cons c m ih =>
    obtain ⟨k, b⟩ := c
    by_cases hk : k = a
    · subst hk
      cases hp : p k with
      | true => simp [hp, Memory.read_cons]
      | false => simpa [List.filter_cons, hp] using ih
    · cases hp : p k with
      | true => simp [hp, Memory.read_cons, hk, ih]
      | false => simp [hp, Memory.read_cons, hk, ih]

theorem Memory.read_erase (m : Memory) (a x : Nat) :
    (m.erase a).read x = if x = a then 0 else m.read x := by
  rw [Memory.erase, Memory.read_filter (fun k => k != a)]
  by_cases h : x = a <;> simp [h]

theorem Memory.read_insert (m : Memory) (a : Nat) (b : Byte) (h : ∀ c ∈ m, c.1 ≠ a) (x : Nat) :
    (m.insert a b).read x = if x = a then b else m.read x := by
  induction m with
  | nil => simp [Memory.insert, Memory.read_cons, eq_comm]
  | cons c m ih =>
    obtain ⟨k, d⟩ := c
    have hk : k ≠ a := h (k, d) List.mem_cons_self
    have ih' := ih fun e he => h e (List.mem_cons_of_mem _ he)
    by_cases hlt : k < a
    · rw [Memory.insert, if_pos hlt, Memory.read_cons, ih', Memory.read_cons]
      by_cases hx : k = x
      · subst hx; simp [hk]
      · simp [hx]
    · rw [Memory.insert, if_neg hlt, Memory.read_cons]
      simp [eq_comm]

theorem Memory.mem_erase {m : Memory} {a : Nat} {c : Host.Cell} : c ∈ m.erase a ↔ c ∈ m ∧ c.1 ≠ a := by
  simp [Memory.erase]

/-- A read after a write: the byte written at its own address, the old byte elsewhere. -/
theorem Memory.read_write (m : Memory) (a : Nat) (b : Byte) (x : Nat) :
    (m.write a b).read x = if x = a then b else m.read x := by
  by_cases hb : b = 0
  · simp [Memory.write, hb, Memory.read_erase]
  · rw [Memory.write, if_neg hb, Memory.read_insert _ _ _ (fun c hc => (Memory.mem_erase.1 hc).2), Memory.read_erase]
    by_cases hx : x = a <;> simp [hx]

@[simp] theorem Memory.read_write_same (m : Memory) (a : Nat) (b : Byte) : (m.write a b).read a = b := by
  simp [Memory.read_write]

theorem Memory.read_write_other (m : Memory) {a x : Nat} (b : Byte) (h : x ≠ a) : (m.write a b).read x = m.read x := by
  simp [Memory.read_write, h]

/-- A read after a byte string is stored: its bytes at its addresses, the old bytes elsewhere. -/
theorem Memory.read_writeBytes (bs : List Byte) (m : Memory) (a x : Nat) :
    (m.writeBytes a bs).read x = if a ≤ x ∧ x < a + bs.length then bs.getD (x - a) 0 else m.read x := by
  induction bs generalizing m a with
  | nil => simp [Memory.writeBytes]
  | cons b bs ih =>
    rw [Memory.writeBytes, ih, Memory.read_write]
    rcases Nat.lt_trichotomy x a with h | h | h
    · rw [if_neg (by omega), if_neg (by omega), if_neg (by simp; omega)]
    · subst h; simp
    · obtain ⟨k, rfl⟩ := Nat.exists_eq_add_of_lt h
      by_cases hk : k < bs.length
      · rw [if_pos (by omega), if_pos (by simp; omega)]
        rw [show a + k + 1 - (a + 1) = k by omega, show a + k + 1 - a = k + 1 by omega]; simp
      · rw [if_neg (by omega), if_neg (by omega), if_neg (by simp; omega)]

/-! The canonical form. -/

theorem Memory.wf_nil : Memory.wf [] := by simp [Memory.wf]

theorem Memory.wf_filter {m : Memory} (p : Host.Cell → Bool) (h : m.wf) : Memory.wf (m.filter p) :=
  ⟨h.1.filter _, fun c hc => h.2 c (List.mem_filter.1 hc).1⟩

theorem Memory.wf_erase {m : Memory} (a : Nat) (h : m.wf) : (m.erase a).wf := Memory.wf_filter _ h

theorem Memory.mem_insert {m : Memory} {a : Nat} {b : Byte} {c : Host.Cell} :
    c ∈ m.insert a b ↔ c = (a, b) ∨ c ∈ m := by
  induction m with
  | nil => simp [Memory.insert]
  | cons d m ih =>
    obtain ⟨k, e⟩ := d
    rw [Memory.insert]
    split
    · simp only [List.mem_cons, ih]; tauto
    · simp

theorem Memory.wf_insert {m : Memory} {a : Nat} {b : Byte} (h : m.wf) (hb : b ≠ 0) (ha : ∀ c ∈ m, c.1 ≠ a) :
    (m.insert a b).wf := by
  refine ⟨?_, fun c hc => ?_⟩
  · induction m with
    | nil => simp [Memory.insert]
    | cons d m ih =>
      obtain ⟨k, e⟩ := d
      have hk : k ≠ a := ha (k, e) List.mem_cons_self
      obtain ⟨hhead, htail⟩ := List.pairwise_cons.1 h.1
      have hm : Memory.wf m := ⟨htail, fun c hc => h.2 c (List.mem_cons_of_mem _ hc)⟩
      rw [Memory.insert]
      split
      · rename_i hlt
        refine List.pairwise_cons.2 ⟨fun c hc => ?_, ih hm fun c hc => ha c (List.mem_cons_of_mem _ hc)⟩
        rcases Memory.mem_insert.1 hc with rfl | hc
        · exact hlt
        · exact hhead c hc
      · rename_i hlt
        refine List.pairwise_cons.2 ⟨fun c hc => ?_, h.1⟩
        rcases List.mem_cons.1 hc with rfl | hc
        · show a < k; omega
        · have := hhead c hc; show a < c.1; simp only at this; omega
  · rcases Memory.mem_insert.1 hc with rfl | hc
    · exact hb
    · exact h.2 c hc

theorem Memory.wf_write {m : Memory} (a : Nat) (b : Byte) (h : m.wf) : (m.write a b).wf := by
  rw [Memory.write]
  split
  · exact Memory.wf_erase a h
  · exact Memory.wf_insert (Memory.wf_erase a h) ‹_› fun c hc => (Memory.mem_erase.1 hc).2

theorem Memory.wf_writeBytes {m : Memory} (bs : List Byte) (a : Nat) (h : m.wf) : (m.writeBytes a bs).wf := by
  induction bs generalizing m a with
  | nil => exact h
  | cons b bs ih => exact ih _ (Memory.wf_write a b h)

/-- The cells after a write are the old ones, or the one written. -/
theorem Memory.mem_write {m : Memory} {a : Nat} {b : Byte} {c : Host.Cell} (h : c ∈ m.write a b) :
    c ∈ m ∨ c.1 = a := by
  rw [Memory.write] at h
  split at h
  · exact .inl (Memory.mem_erase.1 h).1
  · rcases Memory.mem_insert.1 h with rfl | h
    · exact .inr rfl
    · exact .inl (Memory.mem_erase.1 h).1

theorem Memory.mem_writeBytes {bs : List Byte} {m : Memory} {a : Nat} {c : Host.Cell} (h : c ∈ m.writeBytes a bs) :
    c ∈ m ∨ (a ≤ c.1 ∧ c.1 < a + bs.length) := by
  induction bs generalizing m a with
  | nil => exact .inl h
  | cons b bs ih =>
    rcases ih h with h | h
    · rcases Memory.mem_write h with h | h
      · exact .inl h
      · right; simp only [List.length_cons]; omega
    · right; simp only [List.length_cons]; omega

/-- The byte a well-formed memory lists at an address is the byte read there. -/
theorem Memory.read_of_mem {m : Memory} (h : m.wf) {c : Host.Cell} (hc : c ∈ m) : m.read c.1 = c.2 := by
  induction m with
  | nil => simp at hc
  | cons d m ih =>
    obtain ⟨hhead, htail⟩ := List.pairwise_cons.1 h.1
    rw [Memory.read_cons]
    rcases List.mem_cons.1 hc with rfl | hc
    · simp
    · rw [if_neg (Nat.ne_of_lt (hhead c hc))]
      exact ih ⟨htail, fun e he => h.2 e (List.mem_cons_of_mem _ he)⟩ hc

/-- Two memories in canonical form that read alike are equal data. -/
theorem Memory.ext_of_wf {m n : Memory} (hm : m.wf) (hn : n.wf) (h : ∀ a, m.read a = n.read a) : m = n := by
  have sub : ∀ {m n : Memory}, m.wf → n.wf → (∀ a, m.read a = n.read a) → ∀ c ∈ m, c ∈ n := by
    intro m n hm hn h c hc
    have hread : n.read c.1 = c.2 := by rw [← h, Memory.read_of_mem hm hc]
    by_contra hnot
    have : n.read c.1 = 0 ∨ ∃ d ∈ n, d.1 = c.1 := by
      by_cases he : ∃ d ∈ n, d.1 = c.1
      · exact .inr he
      · exact .inl (Memory.read_eq_zero fun d hd hk => he ⟨d, hd, hk⟩)
    rcases this with h0 | ⟨d, hd, hk⟩
    · exact hm.2 c hc (by rw [← hread, h0])
    · have : d = c := Prod.ext hk (by rw [← Memory.read_of_mem hn hd, hk, hread])
      exact hnot (this ▸ hd)
  have nodup : ∀ {m : Memory}, m.wf → m.Nodup := fun hm =>
    hm.1.imp fun hlt heq => absurd hlt (by rw [heq]; exact Nat.lt_irrefl _)
  have hperm : m.Perm n := (List.perm_ext_iff_of_nodup (nodup hm) (nodup hn)).2
    fun c => ⟨sub hm hn h c, sub hn hm (fun a => (h a).symm) c⟩
  exact hperm.eq_of_pairwise (fun a b _ _ hab hba => absurd hab (Nat.lt_asymm hba)) hm.1 hn.1

/-! Byte strings read from memory. -/

@[simp] theorem Memory.readVec_getElem (m : Memory) (a n i : Nat) (h : i < n) : (m.readVec a n)[i] = m.read (a + i) := by
  simp [Memory.readVec]

@[simp] theorem Memory.readList_length (m : Memory) (a n : Nat) : (m.readList a n).length = n := by
  simp [Memory.readList]

theorem Memory.readVec_congr {m m' : Memory} {a n : Nat} (h : ∀ i, i < n → m.read (a + i) = m'.read (a + i)) :
    m.readVec a n = m'.readVec a n := by
  apply Vector.ext; intro i hi; simp [h i hi]

theorem Memory.readList_congr {m m' : Memory} {a n : Nat} (h : ∀ i, i < n → m.read (a + i) = m'.read (a + i)) :
    m.readList a n = m'.readList a n := by
  simp only [Memory.readList]
  exact List.map_congr_left fun i hi => h i (List.mem_range.1 hi)

end Sys2Proof.Machine
end

