-- ==== Sys2Proof/Laws/State.lean ====
section
/-! SUPPORT. What each named update does to each field of the state. -/

namespace Sys2Proof.Machine

variable (s : State)

@[simp] theorem accept_mem (w : Word) : (accept w s).mem = s.mem := rfl
@[simp] theorem accept_skLen (w : Word) : (accept w s).skLen = s.skLen := rfl
@[simp] theorem accept_pkLen (w : Word) : (accept w s).pkLen = s.pkLen := rfl
@[simp] theorem accept_sigLen (w : Word) : (accept w s).sigLen = s.sigLen := rfl
@[simp] theorem accept_msgLen (w : Word) : (accept w s).msgLen = s.msgLen := rfl
@[simp] theorem accept_outLen (w : Word) : (accept w s).outLen = s.outLen := rfl
@[simp] theorem accept_status (w : Word) : (accept w s).status = Status.accepted := rfl
@[simp] theorem accept_phase (w : Word) : (accept w s).phase = .busy (snapshotOf s w) := rfl
@[simp] theorem accept_turns (w : Word) : (accept w s).turns = s.turns := rfl
@[simp] theorem accept_replies (w : Word) : (accept w s).replies = s.replies := rfl

@[simp] theorem dropCommand_mem : (dropCommand s).mem = s.mem := rfl
@[simp] theorem dropCommand_skLen : (dropCommand s).skLen = s.skLen := rfl
@[simp] theorem dropCommand_pkLen : (dropCommand s).pkLen = s.pkLen := rfl
@[simp] theorem dropCommand_sigLen : (dropCommand s).sigLen = s.sigLen := rfl
@[simp] theorem dropCommand_msgLen : (dropCommand s).msgLen = s.msgLen := rfl
@[simp] theorem dropCommand_outLen : (dropCommand s).outLen = s.outLen := rfl
@[simp] theorem dropCommand_status : (dropCommand s).status = s.status.overrun := rfl
@[simp] theorem dropCommand_phase : (dropCommand s).phase = s.phase := rfl
@[simp] theorem dropCommand_turns : (dropCommand s).turns = s.turns := rfl
@[simp] theorem dropCommand_replies : (dropCommand s).replies = s.replies := rfl

@[simp] theorem complete_ok_mem (o : List Byte) (w v : Bool) : (complete (.ok o w v) s).mem = s.mem.writeBytes Buffer.out.base (outBytes o) := by simp only [complete]
@[simp] theorem complete_ok_skLen (o : List Byte) (w v : Bool) : (complete (.ok o w v) s).skLen = s.skLen := by simp only [complete]
@[simp] theorem complete_ok_pkLen (o : List Byte) (w v : Bool) : (complete (.ok o w v) s).pkLen = s.pkLen := by simp only [complete]
@[simp] theorem complete_ok_sigLen (o : List Byte) (w v : Bool) : (complete (.ok o w v) s).sigLen = s.sigLen := by simp only [complete]
@[simp] theorem complete_ok_msgLen (o : List Byte) (w v : Bool) : (complete (.ok o w v) s).msgLen = s.msgLen := by simp only [complete]
@[simp] theorem complete_ok_outLen (o : List Byte) (w v : Bool) : (complete (.ok o w v) s).outLen = BitVec.ofNat 16 o.length := by simp only [complete]
@[simp] theorem complete_ok_status (o : List Byte) (w v : Bool) : (complete (.ok o w v) s).status = s.status.succeeded w v := by simp only [complete]
@[simp] theorem complete_ok_phase (o : List Byte) (w v : Bool) : (complete (.ok o w v) s).phase = .idle := by simp only [complete]
@[simp] theorem complete_ok_turns (o : List Byte) (w v : Bool) : (complete (.ok o w v) s).turns = s.turns := by simp only [complete]
@[simp] theorem complete_ok_replies (o : List Byte) (w v : Bool) : (complete (.ok o w v) s).replies = s.replies := by simp only [complete]

@[simp] theorem complete_err_mem (e : ErrCode) (w : Bool) : (complete (.err e w) s).mem = s.mem.writeBytes Buffer.out.base (outBytes []) := by simp only [complete]
@[simp] theorem complete_err_skLen (e : ErrCode) (w : Bool) : (complete (.err e w) s).skLen = s.skLen := by simp only [complete]
@[simp] theorem complete_err_pkLen (e : ErrCode) (w : Bool) : (complete (.err e w) s).pkLen = s.pkLen := by simp only [complete]
@[simp] theorem complete_err_sigLen (e : ErrCode) (w : Bool) : (complete (.err e w) s).sigLen = s.sigLen := by simp only [complete]
@[simp] theorem complete_err_msgLen (e : ErrCode) (w : Bool) : (complete (.err e w) s).msgLen = s.msgLen := by simp only [complete]
@[simp] theorem complete_err_outLen (e : ErrCode) (w : Bool) : (complete (.err e w) s).outLen = 0 := by simp only [complete]
@[simp] theorem complete_err_status (e : ErrCode) (w : Bool) : (complete (.err e w) s).status = s.status.failed e w := by simp only [complete]
@[simp] theorem complete_err_phase (e : ErrCode) (w : Bool) : (complete (.err e w) s).phase = .idle := by simp only [complete]
@[simp] theorem complete_err_turns (e : ErrCode) (w : Bool) : (complete (.err e w) s).turns = s.turns := by simp only [complete]
@[simp] theorem complete_err_replies (e : ErrCode) (w : Bool) : (complete (.err e w) s).replies = s.replies := by simp only [complete]

@[simp] theorem readTurn_mem (c : Config) (a : Addr) : (readTurn c s a).mem = s.mem := rfl
@[simp] theorem readTurn_skLen (c : Config) (a : Addr) : (readTurn c s a).skLen = s.skLen := rfl
@[simp] theorem readTurn_pkLen (c : Config) (a : Addr) : (readTurn c s a).pkLen = s.pkLen := rfl
@[simp] theorem readTurn_sigLen (c : Config) (a : Addr) : (readTurn c s a).sigLen = s.sigLen := rfl
@[simp] theorem readTurn_msgLen (c : Config) (a : Addr) : (readTurn c s a).msgLen = s.msgLen := rfl
@[simp] theorem readTurn_outLen (c : Config) (a : Addr) : (readTurn c s a).outLen = s.outLen := rfl
@[simp] theorem readTurn_status (c : Config) (a : Addr) : (readTurn c s a).status = s.status := rfl
@[simp] theorem readTurn_phase (c : Config) (a : Addr) : (readTurn c s a).phase = s.phase := rfl
@[simp] theorem readTurn_turns (c : Config) (a : Addr) : (readTurn c s a).turns = s.turns := rfl
@[simp] theorem readTurn_replies (c : Config) (a : Addr) : (readTurn c s a).replies = portRead c s a :: s.replies := rfl

@[simp] theorem resetTurn_mem : (resetTurn s).mem = [] := rfl
@[simp] theorem resetTurn_skLen : (resetTurn s).skLen = 0 := rfl
@[simp] theorem resetTurn_pkLen : (resetTurn s).pkLen = 0 := rfl
@[simp] theorem resetTurn_sigLen : (resetTurn s).sigLen = 0 := rfl
@[simp] theorem resetTurn_msgLen : (resetTurn s).msgLen = 0 := rfl
@[simp] theorem resetTurn_outLen : (resetTurn s).outLen = 0 := rfl
@[simp] theorem resetTurn_status : (resetTurn s).status = Status.reset := rfl
@[simp] theorem resetTurn_phase : (resetTurn s).phase = .idle := rfl
@[simp] theorem resetTurn_turns : (resetTurn s).turns = s.turns := rfl
@[simp] theorem resetTurn_replies : (resetTurn s).replies = s.replies := rfl

@[simp] theorem complete_skLen (r : CmdResult) : (complete r s).skLen = s.skLen := by cases r <;> simp
@[simp] theorem complete_pkLen (r : CmdResult) : (complete r s).pkLen = s.pkLen := by cases r <;> simp
@[simp] theorem complete_sigLen (r : CmdResult) : (complete r s).sigLen = s.sigLen := by cases r <;> simp
@[simp] theorem complete_msgLen (r : CmdResult) : (complete r s).msgLen = s.msgLen := by cases r <;> simp
@[simp] theorem complete_turns (r : CmdResult) : (complete r s).turns = s.turns := by cases r <;> simp
@[simp] theorem complete_replies (r : CmdResult) : (complete r s).replies = s.replies := by cases r <;> simp
@[simp] theorem complete_phase (r : CmdResult) : (complete r s).phase = .idle := by cases r <;> simp
@[simp] theorem complete_done (r : CmdResult) : (complete r s).status.done = true := by cases r <;> simp only [complete] <;> rfl
@[simp] theorem complete_ovr (r : CmdResult) : (complete r s).status.ovr = s.status.ovr := by cases r <;> simp only [complete] <;> rfl

@[simp] theorem snapshotOf_cmd (w : Word) : (snapshotOf s w).cmd = w := rfl
@[simp] theorem snapshotOf_skLen (w : Word) : (snapshotOf s w).skLen = s.skLen := rfl
@[simp] theorem snapshotOf_pkLen (w : Word) : (snapshotOf s w).pkLen = s.pkLen := rfl
@[simp] theorem snapshotOf_sigLen (w : Word) : (snapshotOf s w).sigLen = s.sigLen := rfl
@[simp] theorem snapshotOf_msgLen (w : Word) : (snapshotOf s w).msgLen = s.msgLen := rfl
@[simp] theorem snapshotOf_mem (w : Word) : (snapshotOf s w).mem = inputCells s.mem := rfl

@[simp] theorem isBusy_idle : Phase.idle.isBusy = false := rfl
@[simp] theorem isBusy_busy (x : Snapshot) : (Phase.busy x).isBusy = true := rfl

/-- The fields of STATUS after each of its updates. -/
@[simp] theorem succeeded_done (st : Status) (w v : Bool) : (st.succeeded w v).done = true := rfl
@[simp] theorem succeeded_err (st : Status) (w v : Bool) : (st.succeeded w v).err = 0 := rfl
@[simp] theorem succeeded_warn (st : Status) (w v : Bool) : (st.succeeded w v).warn = w := rfl
@[simp] theorem succeeded_vok (st : Status) (w v : Bool) : (st.succeeded w v).vok = v := rfl
@[simp] theorem succeeded_ovr (st : Status) (w v : Bool) : (st.succeeded w v).ovr = st.ovr := rfl
@[simp] theorem failed_done (st : Status) (e : ErrCode) (w : Bool) : (st.failed e w).done = true := rfl
@[simp] theorem failed_err (st : Status) (e : ErrCode) (w : Bool) : (st.failed e w).err = e.code := rfl
@[simp] theorem failed_warn (st : Status) (e : ErrCode) (w : Bool) : (st.failed e w).warn = w := rfl
@[simp] theorem failed_vok (st : Status) (e : ErrCode) (w : Bool) : (st.failed e w).vok = false := rfl
@[simp] theorem failed_ovr (st : Status) (e : ErrCode) (w : Bool) : (st.failed e w).ovr = st.ovr := rfl
@[simp] theorem overrun_done (st : Status) : st.overrun.done = st.done := rfl
@[simp] theorem overrun_err (st : Status) : st.overrun.err = st.err := rfl
@[simp] theorem overrun_warn (st : Status) : st.overrun.warn = st.warn := rfl
@[simp] theorem overrun_vok (st : Status) : st.overrun.vok = st.vok := rfl
@[simp] theorem overrun_ovr (st : Status) : st.overrun.ovr = true := rfl
@[simp] theorem accepted_done : Status.accepted.done = false := rfl
@[simp] theorem accepted_err : Status.accepted.err = 0 := rfl
@[simp] theorem accepted_warn : Status.accepted.warn = false := rfl
@[simp] theorem accepted_vok : Status.accepted.vok = false := rfl
@[simp] theorem accepted_ovr : Status.accepted.ovr = false := rfl

end Sys2Proof.Machine
end

