-- ==== Sys2Proof/Laws/Ops.lean ====
section
/-! SUPPORT. What the shared operations do: completion, acceptance, the snapshot, the host port. -/

namespace Sys2Proof.Machine

@[simp] theorem outBytes_length (o : List Byte) : (outBytes o).length = 64 := by simp [outBytes]

theorem outBytes_getD (o : List Byte) (i : Nat) : (outBytes o).getD i 0 = if i < 64 then o.getD i 0 else 0 := by
  by_cases h : i < 64
  · rw [List.getD_eq_getElem _ _ (by simpa using h)]; simp [outBytes, h]
  · rw [List.getD_eq_default _ _ (by simpa using Nat.le_of_not_lt h)]; simp [h]

/-- The output bytes a result carries: none for an error (R52). -/
def CmdResult.output : CmdResult → List Byte
  | .ok o _ _ => o
  | .err _ _ => []

/-- A byte of memory after a completion: OUT holds the result and zeros, every other byte is as before (R52). -/
theorem read_complete (r : CmdResult) (s : State) (a : Nat) :
    (complete r s).mem.read a = if 0x100 ≤ a ∧ a < 0x140 then r.output.getD (a - 0x100) 0 else s.mem.read a := by
  cases r <;> simp only [complete_ok_mem, complete_err_mem, CmdResult.output] <;>
    rw [Memory.read_writeBytes, outBytes_length, outBytes_getD, base_out] <;>
    · by_cases h : 0x100 ≤ a ∧ a < 0x140
      · rw [if_pos (by omega), if_pos (by omega), if_pos h]
      · rw [if_neg (by omega), if_neg h]

theorem read_complete_out (r : CmdResult) (s : State) {i : Nat} (h : i < 64) :
    (complete r s).mem.read (0x100 + i) = r.output.getD i 0 := by
  rw [read_complete, if_pos (by omega), Nat.add_sub_cancel_left]

theorem read_complete_other (r : CmdResult) (s : State) {a : Nat} (h : ¬ (0x100 ≤ a ∧ a < 0x140)) :
    (complete r s).mem.read a = s.mem.read a := by
  rw [read_complete, if_neg h]

/-- A completion keeps the memory's canonical form. -/
theorem wf_complete (r : CmdResult) (s : State) (h : s.mem.wf) : (complete r s).mem.wf := by
  cases r <;> simp only [complete_ok_mem, complete_err_mem] <;> exact Memory.wf_writeBytes _ _ h

/-- The cells of memory after a completion are the old ones, or lie in OUT. -/
theorem mem_complete {r : CmdResult} {s : State} {cell : Host.Cell} (h : cell ∈ (complete r s).mem) :
    cell ∈ s.mem ∨ (0x100 ≤ cell.1 ∧ cell.1 < 0x140) := by
  cases r <;> simp only [complete_ok_mem, complete_err_mem] at h <;>
    · rcases Memory.mem_writeBytes h with h | h
      · exact .inl h
      · right; simp only [base_out, outBytes_length] at h; omega

/-- A completion keeps everything outside OUT, OUT_LEN, STATUS and the phase. -/
theorem frame_complete (r : CmdResult) (s : State) : CompletionFrame s (complete r s) :=
  ⟨fun _ h => read_complete_other r s (by simpa using h), by simp, by simp, by simp, by simp, by simp, by simp, by simp⟩

/-- A completion without error leaves its bytes in OUT. -/
theorem outHolds_complete_ok (o : List Byte) (w v : Bool) (s : State) : OutHolds (complete (.ok o w v) s) o :=
  ⟨by simp, fun i hi => by rw [base_out, read_complete_out _ _ hi]; rfl⟩

theorem reports_complete_ok (o : List Byte) (w v : Bool) (s : State) : Reports (complete (.ok o w v) s) 0 w v := by
  simp [Reports]

/-- A completion with an error leaves no output and its code. -/
theorem fails_complete_err (e : ErrCode) (w : Bool) (s : State) : Fails (complete (.err e w) s) e.code w :=
  ⟨⟨by simp, fun i hi => by rw [base_out, read_complete_out _ _ hi]; rfl⟩, by simp [Reports]⟩

/-- The turns to come do not reach a completion. -/
theorem complete_withTurns (r : CmdResult) (s : State) (ts : List Turn) :
    complete r { s with turns := ts } = { complete r s with turns := ts } := by
  cases r <;> simp only [complete]

/-- The words the host has received do not reach a completion. -/
theorem complete_withReplies (r : CmdResult) (s : State) (ws : List Word) :
    complete r { s with replies := ws } = { complete r s with replies := ws } := by
  cases r <;> simp only [complete]

/-- `finish` answers a next state exactly while BUSY, and it is the completion's. -/
theorem finish_eq_next_iff {f : Snapshot → CmdResult} {s t : State} :
    finish f s = .next t ↔ ∃ x, s.phase = .busy x ∧ t = complete (f x) s := by
  cases hp : s.phase with
  | idle => simp [finish, hp]
  | busy x => simp [finish, hp, eq_comm]

theorem finish_busy {f : Snapshot → CmdResult} {s : State} {x : Snapshot} (h : s.phase = .busy x) :
    finish f s = .next (complete (f x) s) := by
  simp [finish, h]

theorem finish_idle {f : Snapshot → CmdResult} {s : State} (h : s.phase = .idle) : finish f s = .fault .engineIdle := by
  simp [finish, h]

/-! The snapshot. -/

theorem read_inputCells (m : Memory) (a : Nat) :
    (inputCells m).read a = if 0x100 ≤ a ∧ a < 0x140 then 0 else m.read a := by
  rw [inputCells, Memory.read_filter (fun k => !(decide (0x0100 ≤ k) && decide (k < 0x0140)))]
  by_cases h : 0x100 ≤ a ∧ a < 0x140
  · simp [h]
  · rw [if_neg h, if_pos]
    simp only [Bool.not_eq_true', Bool.and_eq_false_iff, decide_eq_false_iff_not]
    omega

theorem wf_inputCells {m : Memory} (h : m.wf) : (inputCells m).wf := Memory.wf_filter _ h

theorem inputOnly_inputCells (m : Memory) : (inputCells m).inputOnly := by
  intro cell hc
  have := (List.mem_filter.1 hc).2
  simp only [Bool.not_eq_true', Bool.and_eq_false_iff, decide_eq_false_iff_not] at this
  omega

/-! The host port. -/

theorem read_hostWriteByte (c : Config) (m : Memory) (a : Nat) (b : Byte) (x : Nat) :
    (hostWriteByte c m a b).read x =
      if x = a ∧ ∃ buf, bufferAt c a = some buf ∧ buf.hostWritable = true then b else m.read x := by
  unfold hostWriteByte
  cases hb : bufferAt c a with
  | none => simp
  | some buf =>
    cases hw : buf.hostWritable <;> simp [hw, Memory.read_write]

theorem wf_hostWriteByte {c : Config} {m : Memory} (a : Nat) (b : Byte) (h : m.wf) : (hostWriteByte c m a b).wf := by
  unfold hostWriteByte
  split
  · split
    · exact Memory.wf_write _ _ h
    · exact h
  · exact h

theorem wf_hostWriteBytes {c : Config} {m : Memory} (w : Nat) (v : Word) (h : m.wf) : (hostWriteBytes c m w v).wf :=
  wf_hostWriteByte _ _ (wf_hostWriteByte _ _ (wf_hostWriteByte _ _ (wf_hostWriteByte _ _ h)))

/-- The cells after a host write of one byte are the old ones, or lie in a buffer other than OUT. -/
theorem mem_hostWriteByte {c : Config} {m : Memory} {a : Nat} {b : Byte} {cell : Host.Cell}
    (h : cell ∈ hostWriteByte c m a b) :
    cell ∈ m ∨ ∃ buf, bufferAt c cell.1 = some buf ∧ buf.hostWritable = true := by
  unfold hostWriteByte at h
  cases hb : bufferAt c a with
  | none => rw [hb] at h; exact .inl h
  | some buf =>
    rw [hb] at h
    simp only at h
    split at h
    · rename_i hw
      rcases Memory.mem_write h with h | h
      · exact .inl h
      · exact .inr ⟨buf, by rw [h]; exact hb, hw⟩
    · exact .inl h

theorem mem_hostWriteBytes {c : Config} {m : Memory} {w : Nat} {v : Word} {cell : Host.Cell}
    (h : cell ∈ hostWriteBytes c m w v) :
    cell ∈ m ∨ ∃ buf, bufferAt c cell.1 = some buf ∧ buf.hostWritable = true := by
  rcases mem_hostWriteByte h with h | h
  · rcases mem_hostWriteByte h with h | h
    · rcases mem_hostWriteByte h with h | h
      · exact mem_hostWriteByte h
      · exact .inr h
    · exact .inr h
  · exact .inr h

/-- A byte of memory after a host write of a word: a byte of the word where its address lies in a buffer other than OUT,
the old byte elsewhere (R62, R64). -/
theorem read_hostWriteBytes (c : Config) (m : Memory) (w : Nat) (v : Word) (x : Nat) :
    (hostWriteBytes c m w v).read x =
      if w ≤ x ∧ x < w + 4 ∧ ∃ buf, bufferAt c x = some buf ∧ buf.hostWritable = true then byteOf v (x - w)
      else m.read x := by
  simp only [hostWriteBytes, read_hostWriteByte]
  by_cases hx : w ≤ x ∧ x < w + 4
  · obtain ⟨k, rfl⟩ := Nat.exists_eq_add_of_le hx.1
    have hk : k = 0 ∨ k = 1 ∨ k = 2 ∨ k = 3 := by omega
    rcases hk with rfl | rfl | rfl | rfl <;> simp
  · have h0 : x ≠ w := by omega
    have h1 : x ≠ w + 1 := by omega
    have h2 : x ≠ w + 2 := by omega
    have h3 : x ≠ w + 3 := by omega
    simp only [h0, h1, h2, h3, false_and, if_false]
    rw [if_neg]
    rintro ⟨ha, hb, -⟩
    exact hx ⟨ha, hb⟩

/-- A host write leaves OUT alone (R64). -/
theorem read_hostWriteBytes_out (c : Config) (m : Memory) (w : Nat) (v : Word) {x : Nat} (h : 0x100 ≤ x ∧ x < 0x140) :
    (hostWriteBytes c m w v).read x = m.read x := by
  rw [read_hostWriteBytes, if_neg]
  rintro ⟨-, -, buf, hb, hw⟩
  have hout : bufferAt c x = some .out := bufferAt_eq_some_iff.2 (by simp; omega)
  rw [hout] at hb
  cases hb
  cases hw

theorem commandWrite_idle {w : Word} {s : State} (h : s.phase = .idle) : commandWrite w s = accept w s := by
  simp [commandWrite, h]

theorem commandWrite_busy {w : Word} {s : State} {x : Snapshot} (h : s.phase = .busy x) :
    commandWrite w s = dropCommand s := by
  simp [commandWrite, h]

/-! A host write to CMD touches STATUS and the phase only. -/

@[simp] theorem commandWrite_mem (w : Word) (s : State) : (commandWrite w s).mem = s.mem := by unfold commandWrite; split <;> rfl
@[simp] theorem commandWrite_skLen (w : Word) (s : State) : (commandWrite w s).skLen = s.skLen := by unfold commandWrite; split <;> rfl
@[simp] theorem commandWrite_pkLen (w : Word) (s : State) : (commandWrite w s).pkLen = s.pkLen := by unfold commandWrite; split <;> rfl
@[simp] theorem commandWrite_sigLen (w : Word) (s : State) : (commandWrite w s).sigLen = s.sigLen := by unfold commandWrite; split <;> rfl
@[simp] theorem commandWrite_msgLen (w : Word) (s : State) : (commandWrite w s).msgLen = s.msgLen := by unfold commandWrite; split <;> rfl
@[simp] theorem commandWrite_outLen (w : Word) (s : State) : (commandWrite w s).outLen = s.outLen := by unfold commandWrite; split <;> rfl
@[simp] theorem commandWrite_turns (w : Word) (s : State) : (commandWrite w s).turns = s.turns := by unfold commandWrite; split <;> rfl
@[simp] theorem commandWrite_replies (w : Word) (s : State) : (commandWrite w s).replies = s.replies := by unfold commandWrite; split <;> rfl

/-- A write to the register at its own address. -/
theorem portWrite_reg {c : Config} {s : State} {a : Addr} {v : Word} {r : Reg} (h : wordAddr a = r.addr) :
    portWrite c s a v = writeReg s v r := by
  simp [portWrite, regAt_eq_some_iff.2 h]

/-- A write to any other word stores its bytes (R62, R68). -/
theorem portWrite_mem {c : Config} {s : State} {a : Addr} {v : Word} (h : ∀ r : Reg, wordAddr a ≠ r.addr) :
    portWrite c s a v = { s with mem := hostWriteBytes c s.mem (wordAddr a) v } := by
  simp [portWrite, regAt_eq_none_iff.2 h]

/-- What a host write can do: a command, a store into a length register, a store into memory, or nothing. -/
theorem portWrite_cases (c : Config) (s : State) (a : Addr) (v : Word) :
    (wordAddr a = 0 ∧ portWrite c s a v = commandWrite v s) ∨
    (wordAddr a = 0x8 ∧ portWrite c s a v = { s with skLen := v.extractLsb' 0 16 }) ∨
    (wordAddr a = 0xC ∧ portWrite c s a v = { s with pkLen := v.extractLsb' 0 16 }) ∨
    (wordAddr a = 0x10 ∧ portWrite c s a v = { s with sigLen := v.extractLsb' 0 16 }) ∨
    (wordAddr a = 0x14 ∧ portWrite c s a v = { s with msgLen := v.extractLsb' 0 16 }) ∨
    ((wordAddr a = 0x4 ∨ wordAddr a = 0x18) ∧ portWrite c s a v = s) ∨
    ((∀ r : Reg, wordAddr a ≠ r.addr) ∧
      portWrite c s a v = { s with mem := hostWriteBytes c s.mem (wordAddr a) v }) := by
  cases hr : regAt (wordAddr a) with
  | none =>
    have h := regAt_eq_none_iff.1 hr
    exact .inr (.inr (.inr (.inr (.inr (.inr ⟨h, portWrite_mem h⟩)))))
  | some r =>
    have h := regAt_eq_some_iff.1 hr
    have hw := portWrite_reg (c := c) (s := s) (v := v) h
    cases r <;> simp only [Reg.addr] at h <;> simp [h, hw, writeReg]

@[simp] theorem portWrite_outLen (c : Config) (s : State) (a : Addr) (v : Word) : (portWrite c s a v).outLen = s.outLen := by
  rcases portWrite_cases c s a v with ⟨_, h⟩ | ⟨_, h⟩ | ⟨_, h⟩ | ⟨_, h⟩ | ⟨_, h⟩ | ⟨_, h⟩ | ⟨_, h⟩ <;> rw [h]
  exact commandWrite_outLen _ _

@[simp] theorem portWrite_turns (c : Config) (s : State) (a : Addr) (v : Word) : (portWrite c s a v).turns = s.turns := by
  rcases portWrite_cases c s a v with ⟨_, h⟩ | ⟨_, h⟩ | ⟨_, h⟩ | ⟨_, h⟩ | ⟨_, h⟩ | ⟨_, h⟩ | ⟨_, h⟩ <;> rw [h]
  exact commandWrite_turns _ _

@[simp] theorem portWrite_replies (c : Config) (s : State) (a : Addr) (v : Word) : (portWrite c s a v).replies = s.replies := by
  rcases portWrite_cases c s a v with ⟨_, h⟩ | ⟨_, h⟩ | ⟨_, h⟩ | ⟨_, h⟩ | ⟨_, h⟩ | ⟨_, h⟩ | ⟨_, h⟩ <;> rw [h]
  exact commandWrite_replies _ _

/-- No host write reaches OUT (R64). -/
theorem portWrite_out (c : Config) (s : State) (a : Addr) (v : Word) {i : Nat} (hi : 0x100 ≤ i ∧ i < 0x140) :
    (portWrite c s a v).mem.read i = s.mem.read i := by
  rcases portWrite_cases c s a v with ⟨_, h⟩ | ⟨_, h⟩ | ⟨_, h⟩ | ⟨_, h⟩ | ⟨_, h⟩ | ⟨_, h⟩ | ⟨_, h⟩ <;> rw [h]
  · rw [commandWrite_mem]
  · exact read_hostWriteBytes_out _ _ _ _ hi

theorem portRead_reg {c : Config} {s : State} {a : Addr} {r : Reg} (h : wordAddr a = r.addr) :
    portRead c s a = readReg s r := by
  simp [portRead, regAt_eq_some_iff.2 h]

theorem portRead_mem {c : Config} {s : State} {a : Addr} (h : ∀ r : Reg, wordAddr a ≠ r.addr) :
    portRead c s a = hostReadBytes c s.mem (wordAddr a) := by
  simp [portRead, regAt_eq_none_iff.2 h]

end Sys2Proof.Machine
end

