-- ==== Sys2Proof/Laws/Commands.lean ====
section
/-! SUPPORT. The operands of the commands, as bytes of the snapshot's memory. -/

namespace Sys2Proof.Machine

theorem Memory.readVec_toList (m : Memory) (a n : Nat) :
    (m.readVec a n).toList = (List.range n).map fun k => m.read (a + k) := by
  apply List.ext_getElem
  · simp
  · intro i h1 h2; simp

@[simp] theorem sk_getElem (x : Snapshot) (i : Nat) (h : i < 32) : x.sk[i] = x.mem.read (0x20 + i) := by simp [Snapshot.sk]
@[simp] theorem pk_getElem (x : Snapshot) (i : Nat) (h : i < 33) : x.pk[i] = x.mem.read (0x40 + i) := by simp [Snapshot.pk]
@[simp] theorem sig_getElem (x : Snapshot) (i : Nat) (h : i < 64) : x.sig[i] = x.mem.read (0x80 + i) := by simp [Snapshot.sig]
@[simp] theorem u_getElem (x : Snapshot) (i : Nat) (h : i < 32) : x.u[i] = x.mem.read (0xC0 + i) := by simp [Snapshot.u]

theorem msg_eq (x : Snapshot) : x.msg = (List.range x.msgLen.toNat).map fun k => x.mem.read (0x1000 + k) := rfl

@[simp] theorem taggedU_pk (x : Snapshot) : taggedU x.pk = x.mem.readVec 0x41 32 := by
  apply Vector.ext; intro i hi; simp [taggedU]; congr 1; omega

@[simp] theorem legacyU_pk (x : Snapshot) : legacyU x.pk = x.mem.readVec 0x40 32 := by
  apply Vector.ext; intro i hi; simp [legacyU]

/-- An encoded public key is the tag and the u-coordinate (R105). -/
theorem encodePublic_toList (u : Bytes 32) : (encodePublic u).toList = 0x05 :: u.toList := by
  apply List.ext_getElem
  · simp
  · intro i h1 h2
    cases i with
    | zero => simp [encodePublic, keyTag]
    | succ i => simp [encodePublic]

end Sys2Proof.Machine
end

