-- ==== Sys2Proof/Laws/PerInstr.lean ====
section
/-! SUPPORT. A fact about every instruction as syntax: its fields are those of a legal command word. -/

namespace Sys2Proof.Laws.FieldsLegal

/-- The fields of an instruction are those of a legal command word (R81, R84), and its word shows them again. -/
def Statement (i : Instr) : Prop := i.wellFormed = true ∧ fieldsOf (encode i) = i.fields

theorem clamp : Statement .clamp := ⟨by decide, by decide⟩
theorem encodePub : Statement .encodePub := ⟨by decide, by decide⟩
theorem decodePub : Statement .decodePub := ⟨by decide, by decide⟩
theorem edFromMont (s : Bool) : Statement (.edFromMont s) := by cases s <;> exact ⟨by decide, by decide⟩
theorem sign : Statement .sign := ⟨by decide, by decide⟩
theorem verify : Statement .verify := ⟨by decide, by decide⟩

end Sys2Proof.Laws.FieldsLegal
end

