-- ==== Sys2Proof/Laws/Primitives.lean ====
section
/-! SUPPORT. The equations of the source on the primitives (spec/00_scope.md R22 to R26): those of the machine's record, and
those the reference record meets by its definition. -/

namespace Sys2Proof

@[simp] theorem multiple_zero (add : Point → Point → Point) (zero P : Point) : multiple add zero P 0 = zero := rfl
@[simp] theorem multiple_succ (add : Point → Point → Point) (zero P : Point) (k : Nat) :
    multiple add zero P (k + 1) = add (multiple add zero P k) P := rfl
@[simp] theorem reduceModOrder_val (k : Nat) : (reduceModOrder k).val = k % groupOrder := rfl

/-- `ScalarReduce(B) = LE(B) mod ℓ` (R22). -/
theorem impl_scalarReduce (b : Bytes 32) :
    Config.impl.prim.scalarReduce b = reduceModOrder (Machine.leNat b.toList) := rfl

/-- `ScalarMulAdd(r, h, a) = (r + h·a) mod ℓ` (R26). -/
theorem impl_scalarMulAdd (r h : Scalar) (a : Nat) :
    Config.impl.prim.scalarMulAdd r h a = reduceModOrder (r.val + h.val * a) := rfl

/-- `BaseMul(k)` is the k-fold sum of the base point (R23). -/
theorem impl_baseMul_succ (k : Nat) :
    Config.impl.prim.baseMul (k + 1) = Config.impl.prim.add (Config.impl.prim.baseMul k) Parameters.impl.library.base := rfl

/-- `DoubleScalarVartime(s, h, A)` is `Add(BaseMul(s), h·Neg(A))` (R25). -/
theorem impl_doubleScalarVartime (s h : Scalar) (A : Point) :
    Config.impl.prim.doubleScalarVartime s h A =
      Config.impl.prim.add (Config.impl.prim.baseMul s.val)
        (multiple Config.impl.prim.add (Config.impl.prim.baseMul 0) (Config.impl.prim.neg A) h.val) := rfl

/-- "Using a or a mod ℓ gives the same s" (R147). -/
theorem impl_scalarMulAdd_mod (r h : Scalar) (a : Nat) :
    Config.impl.prim.scalarMulAdd r h (a % groupOrder) = Config.impl.prim.scalarMulAdd r h a := by
  rw [impl_scalarMulAdd, impl_scalarMulAdd]
  apply Fin.ext
  rw [reduceModOrder_val, reduceModOrder_val, Nat.add_mod, Nat.mul_mod, Nat.mod_mod, ← Nat.mul_mod, ← Nat.add_mod]

open Machine in
theorem reference_scalarReduce (x0 : X0Sign1) (b : Bytes 32) :
    (Reference.prim x0).scalarReduce b = reduceModOrder (leNat b.toList) := rfl

open Machine in
theorem reference_scalarMulAdd (x0 : X0Sign1) (r h : Scalar) (a : Nat) :
    (Reference.prim x0).scalarMulAdd r h a = reduceModOrder (r.val + h.val * a) := rfl

end Sys2Proof
end

