-- ==== Sys2Proof/Laws/Step.lean ====
section
/-! SUPPORT. What a step can do, said once: the turn it takes and the state it leaves. -/

namespace Sys2Proof.Machine

/-- What a command computes from its snapshot (R83). -/
def resultOf (i : Instr) (x : Snapshot) : CmdResult :=
  match i with
  | .clamp => clampCmd x
  | .encodePub => encodePubCmd x
  | .decodePub => decodePubCmd x
  | .edFromMont sign => edFromMontCmd Config.impl sign x
  | .sign => signCmd Config.impl x
  | .verify => verifyCmd Config.impl x

/-- `Execute(snap)` (R83). -/
def executeResult (x : Snapshot) : CmdResult :=
  match decode x.cmd with
  | .ok i => resultOf i x
  | .error _ => raise .illegalCommand

/-- Every meaning is a completion of what its command computes. -/
theorem exec_eq_finish (i : Instr) (s : State) : exec i s = finish (resultOf i) s := by
  cases i <;> rfl

theorem exec_busy {i : Instr} {s : State} {x : Snapshot} (h : s.phase = .busy x) :
    exec i s = .next (complete (resultOf i x) s) := by
  rw [exec_eq_finish, finish_busy h]

theorem engineTurn_idle {s : State} (h : s.phase = .idle) : engineTurn s = .next s := by
  simp [engineTurn, h]

theorem engineTurn_busy {s : State} {x : Snapshot} (h : s.phase = .busy x) :
    engineTurn s = .next (complete (executeResult x) s) := by
  simp only [engineTurn, h, executeResult]
  cases decode x.cmd with
  | ok i => exact exec_busy h
  | error e => exact finish_busy h

/-- The state with its first turn taken from the list. -/
def State.popped (s : State) : State := { s with turns := s.turns.tail }

@[simp] theorem popped_mem (s : State) : s.popped.mem = s.mem := rfl
@[simp] theorem popped_skLen (s : State) : s.popped.skLen = s.skLen := rfl
@[simp] theorem popped_pkLen (s : State) : s.popped.pkLen = s.pkLen := rfl
@[simp] theorem popped_sigLen (s : State) : s.popped.sigLen = s.sigLen := rfl
@[simp] theorem popped_msgLen (s : State) : s.popped.msgLen = s.msgLen := rfl
@[simp] theorem popped_outLen (s : State) : s.popped.outLen = s.outLen := rfl
@[simp] theorem popped_status (s : State) : s.popped.status = s.status := rfl
@[simp] theorem popped_phase (s : State) : s.popped.phase = s.phase := rfl
@[simp] theorem popped_turns (s : State) : s.popped.turns = s.turns.tail := rfl
@[simp] theorem popped_replies (s : State) : s.popped.replies = s.replies := rfl

theorem popped_of_nil {s : State} (h : s.turns = []) : s.popped = s := by
  cases s; simp only at h; subst h; rfl

/-- Whether the engine has the turn: it is the first of the list, or no turn is pending. -/
def State.engineHasTurn (s : State) : Prop := s.turns.head? = none ∨ s.turns.head? = some .engine

/-- What a step can do. -/
theorem step_cases (s : State) :
    (s.engineHasTurn ∧ s.phase = .idle ∧ step s = .next s.popped) ∨
    (∃ x, s.engineHasTurn ∧ s.phase = .busy x ∧ step s = .next (complete (executeResult x) s.popped)) ∨
    (∃ a, s.turns.head? = some (.read a) ∧ step s = .next (readTurn Config.impl s.popped a)) ∨
    (∃ a v, s.turns.head? = some (.write a v) ∧ step s = .next (portWrite Config.impl s.popped a v)) ∨
    (s.turns.head? = some .reset ∧ step s = .next (resetTurn s.popped)) := by
  cases ht : s.turns with
  | nil =>
    have hs : step s = engineTurn s.popped := by rw [popped_of_nil ht]; simp [step, ht]
    have he : s.engineHasTurn := .inl (by rw [ht]; rfl)
    cases hp : s.phase with
    | idle => exact .inl ⟨he, rfl, by rw [hs, engineTurn_idle (s := s.popped) hp]⟩
    | busy x => exact .inr (.inl ⟨x, he, rfl, by rw [hs, engineTurn_busy (s := s.popped) hp]⟩)
  | cons t rest =>
    have hpop : s.popped = { s with turns := rest } := by simp [State.popped, ht]
    cases t with
    | engine =>
      have hs : step s = engineTurn s.popped := by rw [hpop]; simp [step, ht]
      have he : s.engineHasTurn := .inr (by rw [ht]; rfl)
      cases hp : s.phase with
      | idle => exact .inl ⟨he, rfl, by rw [hs, engineTurn_idle (s := s.popped) hp]⟩
      | busy x => exact .inr (.inl ⟨x, he, rfl, by rw [hs, engineTurn_busy (s := s.popped) hp]⟩)
    | read a => exact .inr (.inr (.inl ⟨a, rfl, by rw [hpop]; simp [step, ht]⟩))
    | write a v => exact .inr (.inr (.inr (.inl ⟨a, v, rfl, by rw [hpop]; simp [step, ht]⟩)))
    | reset => exact .inr (.inr (.inr (.inr ⟨rfl, by rw [hpop]; simp [step, ht]⟩)))

/-! Runs. -/

@[simp] theorem run_zero (s : State) : run 0 s = .next s := rfl

theorem run_succ {n : Nat} {s t : State} (h : step s = .next t) : run (n + 1) s = run n t := by
  show Host.Core.run Sys2Proof.core (n + 1) s = Host.Core.run Sys2Proof.core n t
  have h' : Sys2Proof.core.step s = .next t := h
  simp [Host.Core.run, h']

end Sys2Proof.Machine
end

