-- ==== Sys2Proof/Tests/Slice0.lean ====
section
/-! SUPPORT. Tests with the values of spec/95_test_vectors.md, and for every obligation with hypotheses a concrete state and
operands that meet them. -/

namespace Sys2Proof.Tests

open Sys2Proof.Machine

/-! Helpers: a byte string, a snapshot, a BUSY block, and what a host reads of a completed block. -/

/-- `u9` of spec/95_test_vectors.md section 2.4: 09 and 31 zero bytes. -/
def u9 : List Byte := 0x09 :: List.replicate 31 0

/-- A memory with the given SK, PK, SIG, U and MSG. -/
def memWith (sk pk sig u msg : List Byte) : Memory :=
  ((((Memory.writeBytes [] 0x20 sk).writeBytes 0x40 pk).writeBytes 0x80 sig).writeBytes 0xC0 u).writeBytes 0x1000 msg

/-- The `n` bytes of a string written as one hexadecimal number, byte 0 first. -/
def hexBytes (n k : Nat) : List Byte := (List.range n).map fun i => BitVec.ofNat 8 (k / 256 ^ (n - 1 - i))

/-- The message `abc`. -/
def abc : List Byte := [0x61, 0x62, 0x63]

/-- PK_A of KEY-A (spec/95_test_vectors.md section 2.1). -/
def keyA : List Byte := hexBytes 33 0x058F40C5ADB68F25624AE5B214EA767A6EC94D829D3D7B5E1AD1BA6F3E2138285F

/-- A snapshot of the command word `w` over a memory. -/
def snapWith (w : Word) (sk pk sig msg : Half) (m : Memory) : Snapshot :=
  { cmd := w, skLen := sk, pkLen := pk, sigLen := sig, msgLen := msg, mem := m }

/-- The block BUSY with a snapshot, its other state as after reset. -/
def busyWith (x : Snapshot) (ts : List Turn) : State := { State.reset with phase := .busy x, turns := ts }

/-- The first `n` bytes of OUT, OUT_LEN and the STATUS word of a next state. -/
def seen (n : Nat) : Host.Outcome State Fault Refusal → Option (List Byte × Half × Word)
  | .next t => some (t.mem.readList 0x100 n, t.outLen, t.status.toWord t.phase.isBusy)
  | .fault _ => none
  | .refused _ => none

/-- What a host read of the word at `a` gives. -/
def word (a : Addr) : Host.Outcome State Fault Refusal → Option Word
  | .next t => some (portRead Config.impl t a)
  | .fault _ => none
  | .refused _ => none

/-- The reference configuration of the vectors: CLAMPED, ACCEPT. -/
def refConfig : Config := Reference.config 0 .clamped .accept

/-! Decoding (spec/95_test_vectors.md section 2.8): RES, S and OP written out bit by bit. -/

theorem test_decode_clamp : decode (0b00000000000000000000000#23 ++ 0b0#1 ++ 0b00000001#8) = .ok .clamp := rfl
theorem test_decode_encode_pub : decode (0b00000000000000000000000#23 ++ 0b0#1 ++ 0b00000010#8) = .ok .encodePub := rfl
theorem test_decode_decode_pub : decode (0b00000000000000000000000#23 ++ 0b0#1 ++ 0b00000011#8) = .ok .decodePub := rfl
theorem test_decode_ed_from_mont_0 :
    decode (0b00000000000000000000000#23 ++ 0b0#1 ++ 0b00000100#8) = .ok (.edFromMont false) := rfl
theorem test_decode_ed_from_mont_1 :
    decode (0b00000000000000000000000#23 ++ 0b1#1 ++ 0b00000100#8) = .ok (.edFromMont true) := rfl
theorem test_decode_sign : decode (0b00000000000000000000000#23 ++ 0b0#1 ++ 0b00000101#8) = .ok .sign := rfl
theorem test_decode_verify : decode (0b00000000000000000000000#23 ++ 0b0#1 ++ 0b00000110#8) = .ok .verify := rfl
theorem test_illegal_op_0 : decode 0x00000000 = .error .unassignedOp := rfl
theorem test_illegal_op_7 : decode 0x00000007 = .error .unassignedOp := rfl
theorem test_illegal_op_ff : decode 0x000000FF = .error .unassignedOp := rfl
theorem test_illegal_sign_1 : decode 0x00000101 = .error .straySign := rfl
theorem test_illegal_sign_5 : decode 0x00000105 = .error .straySign := rfl
theorem test_illegal_res_low : decode 0x00000204 = .error .reservedBits := rfl
theorem test_illegal_res_high : decode 0x80000006 = .error .reservedBits := rfl
theorem test_encode_words :
    [Instr.clamp, .encodePub, .decodePub, .edFromMont false, .edFromMont true, .sign, .verify].map encode =
      [0x00000001, 0x00000002, 0x00000003, 0x00000004, 0x00000104, 0x00000005, 0x00000006] := by decide
theorem test_table_word : decodeTableWord 32 0x104 = some (.edFromMont true) := rfl

/-! Each check of WellFormed refuses an ill-formed term, which passes the other two. -/

theorem test_op_assigned_refuses : (⟨0x07, 0, 0⟩ : Fields).opAssigned = false ∧
    (⟨0x07, 0, 0⟩ : Fields).signAllowed = true ∧ (⟨0x07, 0, 0⟩ : Fields).resClear = true := by decide
theorem test_sign_allowed_refuses : (⟨0x05, 1, 0⟩ : Fields).signAllowed = false ∧
    (⟨0x05, 1, 0⟩ : Fields).opAssigned = true ∧ (⟨0x05, 1, 0⟩ : Fields).resClear = true := by decide
theorem test_res_clear_refuses : (⟨0x06, 0, 0x400000⟩ : Fields).resClear = false ∧
    (⟨0x06, 0, 0x400000⟩ : Fields).opAssigned = true ∧ (⟨0x06, 0, 0x400000⟩ : Fields).signAllowed = true := by decide

/-! The commands. -/

/-- V-CLAMP-1 (W1). -/
theorem test_clamp_ones :
    seen 33 (exec .clamp (busyWith (snapWith 1 32 0 0 0 (memWith (List.replicate 32 0xFF) [] [] [] [])) [])) =
      some (0xF8 :: List.replicate 30 0xFF ++ [0x7F, 0x00], 32, 0x00000002) := by decide +kernel

/-- V-CLAMP-7. -/
theorem test_clamp_long :
    seen 32 (exec .clamp (busyWith (snapWith 1 33 0 0 0 (memWith (List.replicate 32 0xFF) [] [] [] [])) [])) =
      some (List.replicate 32 0, 0, 0x00000006) := by decide +kernel

/-- V-ENC-1. -/
theorem test_encode_pub :
    seen 34 (exec .encodePub (busyWith (snapWith 2 0 0 0 0 (memWith [] [] [] u9 [])) [])) =
      some (0x05 :: u9 ++ [0x00], 33, 0x00000002) := by decide +kernel

/-- V-DEC-2. -/
theorem test_decode_pub_legacy :
    seen 33 (exec .decodePub (busyWith (snapWith 3 0 32 0 0 (memWith [] (u9 ++ [0xAA]) [] [] [])) [])) =
      some (u9 ++ [0x00], 32, 0x00000022) := by decide +kernel

/-- V-DEC-3. -/
theorem test_decode_pub_tag :
    seen 32 (exec .decodePub (busyWith (snapWith 3 0 33 0 0 (memWith [] (0x04 :: u9) [] [] [])) [])) =
      some (List.replicate 32 0, 0, 0x0000000A) := by decide +kernel

/-- V-EDFM-2. -/
theorem test_ed_from_mont_base :
    edFromMontCmd refConfig true (snapWith 0x104 0 0 0 0 (memWith [] [] [] u9 [])) =
      .ok (0x58 :: List.replicate 30 0x66 ++ [0xE6]) false false := by decide +kernel

/-- V-EDFM-9. -/
theorem test_ed_from_mont_non_square :
    edFromMontCmd refConfig false (snapWith 4 0 0 0 0 (memWith [] [] [] [0x02] [])) =
      .err .invalidKeyFormat false := by decide +kernel

/-- V-SIGN-4: KEY-B, whose sign bit is 1. -/
theorem test_sign_abc :
    signCmd refConfig (snapWith 5 32 0 0 3 (memWith (List.replicate 32 0x03) [] [] [] abc)) =
      .ok (hexBytes 64 0xFB7C5BD082E2FABC915DD9F3CF668E5F3CB2B3C89B2077B7A6CACFA6226F4014EE132ED5BFF07EA1B687CF936AE3C5F419D6C5B273858742459B57089586F484)
        false false := by decide +kernel

/-- V-SIGN-5. -/
theorem test_sign_short_key : signCmd refConfig (snapWith 5 31 0 0 3 []) = .err .invalidArgument false := by decide +kernel

/-- V-VER-7: s + ℓ in place of s is accepted. -/
theorem test_verify_unreduced :
    verifyCmd refConfig (snapWith 6 0 33 64 3 (memWith [] keyA (hexBytes 64 0x0113FCE18196D1D42F53F781FBEDB0D5307F001D2D38CB820EC6A372AC614C66F0AF33DE20B2F19FBB87EB5B07FA3ED5A9C06A37E9F8818BED0B12FD0BC62E1E)
      [] abc)) = .ok [] false true := by decide +kernel

/-- V-VER-3: SIG_2 with its sign bit flipped does not verify, without an error. -/
theorem test_verify_sign_bit :
    verifyCmd refConfig (snapWith 6 0 33 64 3 (memWith [] keyA (hexBytes 64 0x0113FCE18196D1D42F53F781FBEDB0D5307F001D2D38CB820EC6A372AC614C6603DC3D81064FDF47E5EAF3B8280060C0A9C06A37E9F8818BED0B12FD0BC62E8E)
      [] abc)) = .ok [] false false := by decide +kernel

/-- The constants of R21: `121666·d = −121665`, and the base point is on the curve, with y = 4/5 and x even. -/
theorem test_curve_constants :
    (121666 * Reference.curveD + 121665) % Reference.fieldPrime = 0 ∧
    5 * Reference.basePoint.y % Reference.fieldPrime = 4 ∧ Reference.basePoint.x % 2 = 0 ∧
    (Reference.basePoint.x ^ 2 + 1 + Reference.curveD * Reference.basePoint.x ^ 2 * Reference.basePoint.y ^ 2) %
      Reference.fieldPrime = Reference.basePoint.y ^ 2 % Reference.fieldPrime := by decide +kernel

/-- An illegal word completes with ERR 3 (spec/95_test_vectors.md section 2.8). -/
theorem test_illegal_word : seen 32 (step (busyWith (snapWith 0x101 32 0 0 0 []) [])) =
    some (List.replicate 32 0, 0, 0x0000000E) := by decide +kernel

/-! The host port (spec/95_test_vectors.md section 2.8). -/

/-- V-REG-3. -/
theorem test_length_half :
    word 0x000C (step { State.reset with turns := [.write 0x000C 0x00012345] }) = some 0x00002345 := by decide +kernel

/-- V-REG-4. -/
theorem test_last_key_byte :
    word 0x0060 (step { State.reset with turns := [.write 0x0060 0xAABBCC05] }) = some 0x00000005 := by decide +kernel

/-- V-REG-6: OUT keeps its value. -/
theorem test_out_read_only :
    word 0x0100 (step { State.reset with turns := [.write 0x0100 0x11223344] }) = some 0 := by decide +kernel

/-- V-REG-7: address bits 1:0 are ignored. -/
theorem test_unaligned_write :
    word 0x0020 (step { State.reset with turns := [.write 0x0023 0x03020100] }) = some 0x03020100 := by decide +kernel

/-- V-REG-8: a second CMD write while BUSY sets OVR, and one CLAMP completes. -/
theorem test_overrun :
    word 0x0004 (run 3 { State.reset with skLen := 32, turns := [.write 0 1, .write 0 1] }) = some 0x00000082 := by
  decide +kernel

/-- Program P1's `poll` over an IDLE block: the branch is not taken. -/
theorem test_poll_expansion :
    HostPseudo.expand (.poll 0 1) = [.label 0, .rd 0x0004 1, .bnz 1 0x1 0] ∧
    HostPseudo.expand (.wrbuf .msg abc) = [.wr 0x1000 (.lit 0x00636261)] := by decide +kernel

/-! Witnesses: for each obligation with hypotheses, a state and operands that meet all of them, at the boundaries of each
clause. -/

/-- SK all ones, a tagged PK, U = u9: no byte of MSG, so that nothing here depends on MSG_MAX. -/
def sampleMem : Memory := memWith (List.replicate 32 0xFF) (0x05 :: u9) [] u9 []

/-- A snapshot with every length right. -/
def sample (w : Word) : Snapshot := snapWith w 32 33 64 0 sampleMem

/-- A block BUSY with that snapshot and with that memory, its previous command having completed. -/
def sampleBusy (w : Word) (ts : List Turn) : State := { busyWith (sample w) ts with mem := sampleMem, skLen := 32 }

theorem sample_mem (w : Word) : (sample w).mem = sampleMem := by simp only [sample, snapWith]

theorem sampleBusy_mem (w : Word) (ts : List Turn) : (sampleBusy w ts).mem = sampleMem := by simp only [sampleBusy]

/-- The same block IDLE. -/
def sampleIdle (ts : List Turn) : State := { State.reset with mem := sampleMem, skLen := 32, turns := ts }

theorem zero_le_msgMax (c : Config) : (0 : Half).toNat ≤ c.msgMax := by simp

theorem msgMax_lt_ffff (c : Config) : c.msgMax < (0xFFFF : Half).toNat := by
  have := c.msgWords.isLt; simp only [Config.msgMax]; show 4 * (c.msgWords.val + 1) < 65535; omega

/-- MSG_MAX itself, as a length. -/
theorem msgMax_toNat (c : Config) : (BitVec.ofNat 16 c.msgMax).toNat = c.msgMax := by
  have := c.msgWords.isLt; simp only [Config.msgMax, BitVec.toNat_ofNat]; omega

/-- The first length past MSG_MAX. -/
theorem msgMax_succ_toNat (c : Config) : (BitVec.ofNat 16 (c.msgMax + 1)).toNat = c.msgMax + 1 := by
  have := c.msgWords.isLt; simp only [Config.msgMax, BitVec.toNat_ofNat]; omega

theorem witness_StepRunsDecodedCommand :
    (sampleBusy 1 []).phase = .busy (sample 1) ∧ decode (sample 1).cmd = .ok .clamp ∧ (sampleBusy 1 []).turns = [] ∧
    (sampleBusy 1 [.engine, .reset]).turns = .engine :: [.reset] := ⟨rfl, rfl, rfl, rfl⟩

theorem witness_FetchedWordRunsNext : decodeTableWord 32 0x00000104 = some (.edFromMont true) := rfl

/-- An IDLE block with a result, and the engine's turn taken explicitly or for want of another. -/
theorem witness_StepAlwaysAnswersNext :
    (sampleIdle []).phase = .idle ∧ (sampleIdle []).turns.head? = none ∧ (sampleIdle [.engine]).phase = .idle ∧
    (sampleIdle [.engine]).turns.head? = some .engine := ⟨rfl, rfl, rfl, rfl⟩

theorem witness_IdleEngineStopsByName : (sampleIdle []).phase = .idle := rfl

theorem witness_IllegalWordCompletes :
    (sampleBusy 7 []).phase = .busy (sample 7) ∧ decode (sample 7).cmd = .error .unassignedOp ∧
      (sampleBusy 7 []).turns = [] ∧ (sampleBusy 7 [.engine, .reset]).turns = .engine :: [.reset] := ⟨rfl, rfl, rfl, rfl⟩

theorem witness_ClampCompletes : (sampleBusy 1 []).phase = .busy (sample 1) ∧ (sample 1).skLen = 32 := ⟨rfl, rfl⟩

/-- The lengths next to 32. -/
theorem witness_ClampBadLengthFails :
    (busyWith (snapWith 1 31 0 0 0 []) []).phase = .busy (snapWith 1 31 0 0 0 []) ∧ (snapWith 1 31 0 0 0 []).skLen ≠ 32 ∧
    (busyWith (snapWith 1 33 0 0 0 []) []).phase = .busy (snapWith 1 33 0 0 0 []) ∧ (snapWith 1 33 0 0 0 []).skLen ≠ 32 := by
  decide

theorem witness_EncodePubCompletes : (sampleBusy 2 []).phase = .busy (sample 2) := rfl

theorem witness_DecodePubCompletes :
    (sampleBusy 3 []).phase = .busy (sample 3) ∧ (sample 3).pkLen = 33 ∧ (sample 3).mem.read 0x40 = 0x05 ∧
    (busyWith (snapWith 3 0 32 0 0 sampleMem) []).phase = .busy (snapWith 3 0 32 0 0 sampleMem) ∧
    (snapWith 3 0 32 0 0 sampleMem).pkLen = 32 := by decide +kernel

/-- The lengths next to 32 and 33, and the tags next to 05. -/
theorem witness_DecodePubErrors :
    (∀ n : Half, n = 31 ∨ n = 34 → n ≠ 32 ∧ n ≠ 33) ∧
    (busyWith (snapWith 3 0 31 0 0 []) []).phase = .busy (snapWith 3 0 31 0 0 []) ∧
    (∀ tag : Byte, tag = 0x04 ∨ tag = 0x06 → (memWith [] (tag :: u9) [] [] []).read 0x40 ≠ 0x05) ∧
    (busyWith (snapWith 3 0 33 0 0 (memWith [] (0x04 :: u9) [] [] [])) []).phase =
      .busy (snapWith 3 0 33 0 0 (memWith [] (0x04 :: u9) [] [] [])) := by
  refine ⟨by rintro n (rfl | rfl) <;> decide, rfl, by rintro tag (rfl | rfl) <;> decide +kernel, rfl⟩

theorem witness_EdFromMontCompletes : (sampleBusy 0x104 []).phase = .busy (sample 0x104) := rfl

/-- The shortest and the longest message. -/
theorem witness_SignCompletes :
    (sampleBusy 5 []).phase = .busy (sample 5) ∧ (sample 5).skLen = 32 ∧
    (sample 5).msgLen.toNat ≤ Config.impl.msgMax ∧
    (BitVec.ofNat 16 Config.impl.msgMax).toNat ≤ Config.impl.msgMax :=
  ⟨rfl, rfl, zero_le_msgMax _, (msgMax_toNat _).le⟩

/-- The first message too long, and the key lengths next to 32. -/
theorem witness_SignBadLengthFails :
    (∀ n : Half, (busyWith (snapWith 5 32 0 0 n []) []).phase = .busy (snapWith 5 32 0 0 n [])) ∧
    Config.impl.msgMax < (BitVec.ofNat 16 (Config.impl.msgMax + 1)).toNat ∧ Config.impl.msgMax < (0xFFFF : Half).toNat ∧
    (snapWith 5 31 0 0 0 []).skLen ≠ 32 ∧ (snapWith 5 33 0 0 0 []).skLen ≠ 32 :=
  ⟨fun _ => rfl, by rw [msgMax_succ_toNat]; omega, msgMax_lt_ffff _, by decide, by decide⟩

theorem witness_VerifyCompletes :
    (sampleBusy 6 []).phase = .busy (sample 6) ∧ (sample 6).msgLen.toNat ≤ Config.impl.msgMax ∧ (sample 6).sigLen = 64 ∧
    ((sample 6).pkLen = 33 ∧ (sample 6).mem.read 0x40 = 0x05) ∧ (snapWith 6 0 32 64 0 sampleMem).pkLen = 32 :=
  ⟨rfl, zero_le_msgMax _, rfl, by decide +kernel, rfl⟩

/-- The lengths next to 64, 32 and 33, the first message too long, and a tag that is not 05. -/
theorem witness_VerifyErrorsInOrder :
    (∀ x, (busyWith x []).phase = .busy x) ∧
    Config.impl.msgMax < (BitVec.ofNat 16 (Config.impl.msgMax + 1)).toNat ∧
    (snapWith 6 0 33 63 0 []).sigLen ≠ 64 ∧ (snapWith 6 0 33 65 0 []).sigLen ≠ 64 ∧
    ((snapWith 6 0 31 64 0 []).pkLen ≠ 32 ∧ (snapWith 6 0 31 64 0 []).pkLen ≠ 33) ∧
    ((snapWith 6 0 34 64 0 []).pkLen ≠ 32 ∧ (snapWith 6 0 34 64 0 []).pkLen ≠ 33) ∧
    (snapWith 6 0 33 64 0 []).msgLen.toNat ≤ Config.impl.msgMax ∧ (snapWith 6 0 33 64 0 []).mem.read 0x40 ≠ 0x05 :=
  ⟨fun _ => rfl, by rw [msgMax_succ_toNat]; omega, by decide, by decide, by decide, by decide, zero_le_msgMax _, by decide⟩

theorem witness_AfterResetLengthsFail :
    Instr.verify = .clamp ∨ Instr.verify = .decodePub ∨ Instr.verify = .sign ∨ Instr.verify = .verify := by decide

theorem witness_ClampBytes : ((1 : Fin 32).val ≠ 0 ∧ (1 : Fin 32).val ≠ 31) ∧ ((30 : Fin 32).val ≠ 0 ∧ (30 : Fin 32).val ≠ 31) := by
  decide

/-- The last bit of a byte. -/
theorem witness_ClampMultiplexer : (7 : Nat) < 8 ∧ 8 * (31 : Fin 32).val + 7 = 255 := by decide

/-- A tagged key, a wrong tag, and the lengths next to the legal ones. -/
theorem witness_DecodePublicCases :
    (sample 3).pk[0] = 0x05 ∧ (snapWith 3 0 33 0 0 []).pk[0] ≠ 0x05 ∧ ((31 : Half) ≠ 32 ∧ (31 : Half) ≠ 33) ∧
    ((34 : Half) ≠ 32 ∧ (34 : Half) ≠ 33) := by decide +kernel

theorem witness_DecodePublicProperties : (snapWith 3 0 33 0 0 []).pk[0] = 0x00 ∧ (0x00 : Byte) ≠ 0x05 := by decide +kernel

theorem witness_SignRecoverSplits : (0 : Fin 64).val ≠ 63 ∧ (62 : Fin 64).val ≠ 63 := by decide

/-- V-SIGN-7: KEY-A's scalar with the bits the clamp fixes flipped, and other bytes past the message. -/
theorem witness_SignSeesClampOnly :
    let x := snapWith 5 32 0 0 3 (memWith ((List.range 32).map (BitVec.ofNat 8)) [] [] [] (abc ++ [0x00]))
    let y := snapWith 5 32 0 0 3 (memWith (0x07 :: (List.range 30).map (fun k => BitVec.ofNat 8 (k + 1)) ++ [0xDF]) [] [] []
      (abc ++ [0x64]))
    x.sk ≠ y.sk ∧ clamp x.sk = clamp y.sk ∧ x.skLen = y.skLen ∧ x.msgLen = y.msgLen ∧
      ∀ k, k < x.msgLen.toNat → x.mem.read (0x1000 + k) = y.mem.read (0x1000 + k) := by decide +kernel

/-- Two snapshots that differ in PK and U alone. -/
theorem witness_SignReadsOnlyItsInputs :
    let x := sample 5
    let y := snapWith 5 32 33 64 0 (memWith (List.replicate 32 0xFF) [] [] [] [])
    (busyWith x []).phase = .busy x ∧ (busyWith y []).phase = .busy y ∧ x.mem ≠ y.mem ∧ x.skLen = y.skLen ∧
      x.msgLen = y.msgLen ∧ (∀ a, a < 0x40 → 0x20 ≤ a → x.mem.read a = y.mem.read a) ∧
      ∀ k, k < x.msgLen.toNat → x.mem.read (0x1000 + k) = y.mem.read (0x1000 + k) := by decide +kernel

/-! A lawful record of primitives, for the witness of `SignThenVerifyAccepts`: the point of `k` is `k mod ℓ` itself. -/

/-- The point `k·B` of the toy group. -/
def toyPoint (k : Nat) : Point := { x := k % groupOrder, y := 0 }

/-- The integers mod `ℓ` in the place of the curve, and a hash that is the same for every string. -/
def toyPrim : Prim where
  sha512 _ := Vector.ofFn fun i => BitVec.ofNat 8 (i.val + 1)
  scalarReduce b := Fin.ofNat groupOrder (leNat b.toList)
  scalarReduceWide d := Fin.ofNat groupOrder (leNat d.toList)
  baseMul := toyPoint
  compress P := enc32 P.x
  neg P := toyPoint (groupOrder - P.x % groupOrder)
  add P Q := toyPoint (P.x + Q.x)
  montToEd u _ := some (toyPoint (leNat u.toList))
  doubleScalarVartime s h A := toyPoint (s.val + h.val * (groupOrder - A.x % groupOrder))
  scalarMulAdd r h a := Fin.ofNat groupOrder (r.val + h.val * a)

theorem toy_cancel (r h a n : Nat) (hn : 0 < n) : ((r + h * a) % n + h * (n - a % n % n)) % n = r % n := by
  rw [Nat.mod_mod, Nat.mod_add_mod]
  have ha : a % n ≤ n := (Nat.mod_lt a hn).le
  have e : r + h * a + h * (n - a % n) = r + n * (h * (a / n) + h) := by
    have hd : a = n * (a / n) + a % n := (Nat.div_add_mod a n).symm
    calc r + h * a + h * (n - a % n) = r + h * (a + (n - a % n)) := by ring
      _ = r + h * (n * (a / n) + n) := by
          have : a + (n - a % n) = n * (a / n) + n := by omega
          rw [this]
      _ = r + n * (h * (a / n) + h) := by ring
  rw [e, Nat.add_mul_mod_self_left]

theorem toy_laws : SignatureLaws toyPrim where
  reduce _ := rfl
  cancel r h a := by
    show toyPoint _ = toyPoint _
    simp only [toyPoint, Point.mk.injEq, and_true]
    exact toy_cancel r.val h.val a groupOrder (by decide)

/-- The toy primitives in a configuration. -/
def toyConfig : Config := { msgWords := 0, nonceKeyForm := .clamped, x0Sign1 := .accept, prim := toyPrim }

/-- A SIGN of `abc` under a scalar of all ones. -/
def toySign : Snapshot := snapWith 5 32 0 0 3 (memWith (List.replicate 32 0xFF) [] [] [] abc)

/-- The u-coordinate of that scalar's public key. -/
def toyU : Bytes 32 := enc32 (leNat (clamp toySign.sk).toList % groupOrder)

/-- A VERIFY of what the SIGN outputs. -/
def toyVerify : Snapshot :=
  snapWith 6 0 33 64 3 (memWith [] (encodePublic toyU).toList (xeddsaSign toyConfig toySign.sk toySign.msg).toList [] abc)

theorem witness_SignThenVerifyAccepts :
    SignatureLaws toyConfig.prim ∧ toySign.msgLen.toNat ≤ toyConfig.msgMax ∧ toySign.skLen = 32 ∧
    toyVerify.msg = toySign.msg ∧ toyVerify.msgLen = toySign.msgLen ∧ toyVerify.sigLen = 64 ∧ toyVerify.pkLen = 33 ∧
    (toyVerify.pk = encodePublic toyU ∧ KeyMatches toyConfig.prim toyU (leNat (clamp toySign.sk).toList)) ∧
    signCmd toyConfig toySign = .ok toyVerify.sig.toList false false := by
  refine ⟨toy_laws, by decide, rfl, by decide +kernel, rfl, rfl, rfl, ⟨by decide +kernel, ?_⟩, by decide +kernel⟩
  unfold KeyMatches; decide +kernel

/-- A signature of zeros: `s = 0`. -/
def reducedS : Snapshot := snapWith 6 0 33 64 3 (memWith [] keyA [] [] abc)

/-- The same R and sign bit with `s = ℓ`. -/
def unreducedS : Snapshot :=
  snapWith 6 0 33 64 3 (memWith [] keyA (List.replicate 32 0 ++ (enc32 groupOrder).toList) [] abc)

theorem reference_scalarReduce (b : Bytes 32) : (refConfig.prim.scalarReduce b).val = leNat b.toList % groupOrder := by
  simp only [refConfig, Reference.config, Reference.prim, reduceModOrder_val]

theorem witness_VerifyReducesS :
    (∀ b : Bytes 32, (refConfig.prim.scalarReduce b).val = leNat b.toList % groupOrder) ∧
    reducedS.msgLen = unreducedS.msgLen ∧ reducedS.msg = unreducedS.msg ∧ reducedS.sigLen = unreducedS.sigLen ∧
    reducedS.pkLen = unreducedS.pkLen ∧ reducedS.pk = unreducedS.pk ∧ reducedS.sig ≠ unreducedS.sig ∧
    (∀ i : Fin 32, reducedS.sig[i.val] = unreducedS.sig[i.val]) ∧
    reducedS.sig[63].getLsbD 7 = unreducedS.sig[63].getLsbD 7 ∧
    leNat (sigS (signRecover reducedS.sig).2).toList % groupOrder =
      leNat (sigS (signRecover unreducedS.sig).2).toList % groupOrder :=
  ⟨reference_scalarReduce, by decide +kernel⟩

/-- A legacy key with a byte 0xAA after it, and the tagged key with the same u. -/
theorem witness_LegacyKeyVerifiesAlike :
    let u : Bytes 32 := Vector.ofFn fun i => u9.getD i.val 0
    let x := snapWith 6 0 32 64 3 (memWith [] (u9 ++ [0xAA]) [] [] abc)
    let y := snapWith 6 0 33 64 3 (memWith [] (0x05 :: u9) [] [] abc)
    x.pkLen = 32 ∧ x.pk = u.push 0xAA ∧ y.pkLen = 33 ∧ y.pk = encodePublic u ∧ x.msgLen = y.msgLen ∧ x.msg = y.msg ∧
    x.sigLen = y.sigLen ∧ x.sig = y.sig ∧ x.sigLen = 64 ∧ x.msgLen.toNat ≤ refConfig.msgMax := by decide +kernel

/-- V-VER-1 and V-VER-8 for the tagged key, and the same with the legacy key. -/
theorem witness_ReferenceVerifyIgnoresTopBit :
    let x := snapWith 6 0 33 64 3 (memWith [] keyA [] [] abc)
    let y := snapWith 6 0 33 64 3 (memWith [] (hexBytes 33 0x058F40C5ADB68F25624AE5B214EA767A6EC94D829D3D7B5E1AD1BA6F3E213828DF) [] [] abc)
    let x' := snapWith 6 0 32 64 3 (memWith [] (keyA.drop 1) [] [] abc)
    let y' := snapWith 6 0 32 64 3 (memWith [] (hexBytes 32 0x8F40C5ADB68F25624AE5B214EA767A6EC94D829D3D7B5E1AD1BA6F3E213828DF) [] [] abc)
    (y.pkLen = x.pkLen ∧ y.msgLen = x.msgLen ∧ y.msg = x.msg ∧ y.sigLen = x.sigLen ∧ y.sig = x.sig ∧
      (x.pkLen = 33 ∧ y.pk = x.pk.set 32 (x.pk[32] ^^^ 0x80))) ∧
    (y'.pkLen = x'.pkLen ∧ y'.msgLen = x'.msgLen ∧ y'.msg = x'.msg ∧ y'.sigLen = x'.sigLen ∧ y'.sig = x'.sig ∧
      (x'.pkLen = 32 ∧ y'.pk = x'.pk.set 31 (x'.pk[31] ^^^ 0x80))) := by decide +kernel

/-! Witnesses of the port and of the life of a command. -/

theorem witness_ResetTurnRestores : (sampleBusy 1 [.reset, .engine]).turns = .reset :: [.engine] := rfl

theorem witness_AcceptanceSnapshots :
    (sampleIdle [.write 0x0003 0x101]).phase = .idle ∧ (sampleIdle [.write 0x0003 0x101]).turns = .write 0x0003 0x101 :: [] ∧
    wordAddr 0x0003 = 0 ∧ (Buffer.pk ≠ .out ∧ 32 < Buffer.pk.size Config.impl) := by
  refine ⟨rfl, rfl, by decide, by decide, by show 32 < 33; decide⟩

theorem witness_BusyCommandDropped :
    (sampleBusy 1 [.write 0x0000 6]).phase = .busy (sample 1) ∧ (sampleBusy 1 [.write 0x0000 6]).turns = .write 0x0000 6 :: [] ∧
    wordAddr 0x0000 = 0 := ⟨rfl, rfl, by decide⟩

theorem witness_LowAddressBitsIgnored : (0xFFFC : Addr).toNat / 4 = (0xFFFF : Addr).toNat / 4 := by decide

/-- The first and the last word of each buffer, with MSG_MAX = 4. -/
theorem witness_BufferWriteStoresBytes :
    ∀ q ∈ [(Buffer.sk, (0x20 : Addr)), (.sk, 0x3F), (.pk, 0x40), (.pk, 0x60), (.sig, 0x80), (.sig, 0xBC), (.u, 0xC0), (.u, 0xDC),
        (.msg, 0x1000), (.msg, 0x1003)],
      q.1 ≠ .out ∧ q.1.base ≤ wordAddr q.2 ∧ wordAddr q.2 < q.1.base + q.1.size refConfig := by decide

theorem witness_ReadReturnsLastWrite :
    ∀ q ∈ [(Buffer.sk, (0x20 : Addr)), (.sk, 0x3F), (.pk, 0x40), (.pk, 0x5C), (.sig, 0xBC), (.u, 0xDC), (.msg, 0x1000)],
      q.1 ≠ .out ∧ q.1.base ≤ wordAddr q.2 ∧ wordAddr q.2 + 4 ≤ q.1.base + q.1.size refConfig := by decide

/-- The first and the last word of each reserved range, with MSG_MAX = 4; the clauses exclude each other there. -/
theorem witness_ReadOnlyAndReserved :
    (wordAddr 0x0004 = 0x0004 ∧ wordAddr 0x001B = 0x0018) ∧ (wordAddr 0x0100 = 0x0100 ∧ wordAddr 0x013F < 0x0140) ∧
    wordAddr 0x001C = 0x001C ∧ (0x0064 ≤ wordAddr 0x0064 ∧ wordAddr 0x007F < 0x0080) ∧
    (0x00E0 ≤ wordAddr 0x00E0 ∧ wordAddr 0x00FF < 0x0100) ∧ (0x0140 ≤ wordAddr 0x0140 ∧ wordAddr 0x0FFF < 0x1000) ∧
    (0x1000 + refConfig.msgMax ≤ wordAddr 0x1004 ∧ 0x1000 + refConfig.msgMax ≤ wordAddr 0xFFFF) := by decide

theorem witness_ReadsHaveNoSideEffect :
    (sampleBusy 1 [.read 0x0002]).turns = .read 0x0002 :: [] ∧ wordAddr 0x0002 = 0 := ⟨rfl, by decide⟩

/-- A completion changes OUT_LEN and OUT; after it, so does a reset. -/
theorem witness_OutputWrittenByCompletionOrReset :
    seen 1 (step (sampleBusy 1 [])) = some ([0xF8], 32, 2) ∧ (sampleBusy 1 []).outLen = 0 ∧
    (sampleBusy 1 []).mem.read 0x100 = 0 ∧ seen 1 (run 2 (sampleBusy 1 [.engine, .reset])) = some ([0x00], 0, 0) := by
  decide +kernel

theorem witness_OverrunOnlyFromBusyCommand :
    (sampleBusy 1 [.write 0 1]).status.ovr = false ∧
    word 4 (step (sampleBusy 1 [.write 0 1])) = some 0x00000081 := by decide +kernel

/-- An acceptance, a completion, a reset, and a read that leaves the phase. -/
theorem witness_PhaseChangesOnlyByItsEvents :
    (sampleIdle [.write 0 1]).phase = .idle ∧ word 4 (step (sampleIdle [.write 0 1])) = some 0x00000001 ∧
    (sampleBusy 1 []).phase = .busy (sample 1) ∧ word 4 (step (sampleBusy 1 [])) = some 0x00000002 ∧
    word 4 (step (sampleBusy 1 [.reset])) = some 0x00000000 ∧ word 4 (step (sampleBusy 1 [.read 4])) = some 0x00000001 := by
  decide +kernel

theorem witness_InputsWrittenByHostOnly :
    seen 0 (step (sampleBusy 1 [])) = some ([], 32, 2) ∧ (∀ a v, (sampleBusy 1 []).turns.head? ≠ some (.write a v)) ∧
    (sampleBusy 1 []).turns.head? ≠ some .reset := by
  refine ⟨by decide +kernel, ?_, ?_⟩
  · intro a v h; cases h
  · intro h; cases h

/-- Three turns over two different snapshots, each run to its end. -/
theorem witness_SnapshotIsHidden :
    let ts : List Turn := [.read 4, .write 8 0, .write 0 2]
    (sampleBusy 1 ts).phase = .busy (sample 1) ∧ 3 ≤ (sampleBusy 1 ts).turns.length ∧
    (∀ turn ∈ (sampleBusy 1 ts).turns, turn ≠ .engine ∧ turn ≠ .reset) ∧ sample 1 ≠ sample 6 ∧
    word 4 (run 3 (sampleBusy 1 ts)) = some 0x00000081 ∧
    word 4 (run 3 { sampleBusy 1 ts with phase := .busy (sample 6) }) = some 0x00000081 := by decide +kernel

/-- A host that overwrites SK and reads OUT while BUSY. -/
theorem witness_ResultIndependentOfLatency :
    (sampleBusy 1 []).phase = .busy (sample 1) ∧ (sampleBusy 1 []).mem.wf ∧
    (∀ turn ∈ [Turn.write 0x20 0, .read 0x100, .write 8 31], turn.isDataAccess = true) := by decide +kernel

theorem witness_BusyBlockCompletes :
    (sampleBusy 1 [.read 4, .write 0 1]).phase = .busy (sample 1) ∧
    (∀ turn ∈ (sampleBusy 1 [.read 4, .write 0 1]).turns, turn ≠ .reset) := by decide +kernel

/-- The host inside a `poll` that follows another statement, at the read. -/
theorem witness_PollWaitsWhileBusy :
    let prog := HostPseudo.expand (.cmd .clamp) ++ HostPseudo.expand (.poll 0 1)
    let h : HostRun := { pc := 1 + 1, temps := [], block := sampleBusy 1 [] }
    prog[1]? = some (.label 0) ∧ (∀ j, j < 1 → prog[j]? ≠ some (.label 0)) ∧
    prog[1 + 1]? = some (.rd (regAddr .status) 1) ∧ prog[1 + 2]? = some (.bnz 1 0x1 0) ∧ h.pc = 1 + 1 := by decide

theorem witness_HostCommandStarts :
    let prog := HostPseudo.expand (.cmd .clamp)
    HostPseudo.expand (.cmd .clamp) = [.wr 0x0000 (.lit 0x00000001)] ∧ prog[0]? = some (.wr 0x0000 (.lit 0x00000001)) ∧
    (sampleIdle []).phase = .idle := by decide

/-- The memory of the sample lies in buffers whatever MSG_MAX is. -/
theorem sampleMem_mapped (c : Config) : sampleMem.mapped c := by
  intro cell h
  have key : ∀ cell ∈ sampleMem, (0x20 ≤ cell.1 ∧ cell.1 < 0x40) ∨ (0x40 ≤ cell.1 ∧ cell.1 < 0x61) ∨
      (0xC0 ≤ cell.1 ∧ cell.1 < 0xE0) := by decide +kernel
  rcases key cell h with hb | hb | hb
  · rw [(bufferAt_eq_some_iff (b := Buffer.sk)).2 (by simpa using hb)]; rfl
  · rw [(bufferAt_eq_some_iff (b := Buffer.pk)).2 (by simpa using hb)]; rfl
  · rw [(bufferAt_eq_some_iff (b := Buffer.u)).2 (by simpa using hb)]; rfl

/-- A BUSY block in canonical form whose completion writes OUT. -/
theorem witness_StepKeepsMemoriesWf :
    (sampleBusy 1 []).memoriesWf Config.impl ∧ seen 1 (step (sampleBusy 1 [])) = some ([0xF8], 32, 2) := by
  refine ⟨⟨by decide +kernel, by rw [sampleBusy_mem]; exact sampleMem_mapped _, ?_⟩, by decide +kernel⟩
  intro x hx
  have : x = sample 1 := by simpa [sampleBusy, busyWith, eq_comm] using hx
  subst this
  refine ⟨by decide +kernel, by rw [sample_mem]; exact sampleMem_mapped _, ?_⟩
  rw [sample_mem]; unfold Memory.inputOnly
  decide +kernel

/-- The same block: OUT is empty and STATUS clear while it is BUSY. -/
theorem witness_StepKeepsResultConsistent :
    (sampleBusy 1 []).ResultConsistent ∧ seen 1 (step (sampleBusy 1 [])) = some ([0xF8], 32, 2) := by
  refine ⟨⟨.inl rfl, ?_, by decide, fun _ => ⟨rfl, rfl, rfl, rfl⟩, fun h => absurd rfl h, fun h => rfl, ?_⟩,
    by decide +kernel⟩
  · intro i hi _
    have : ∀ i < 64, sampleMem.read (0x0100 + i) = 0 := by decide +kernel
    rw [sampleBusy_mem]; exact this i hi
  · intro h; cases h

end Sys2Proof.Tests
end

