-- ==== Sys2Proof/Proofs/ReferenceMap.lean ====
section
/-! PROOFS. The map of R24 under the reference record: it ignores bit 255 of u (O34), and its two corners (O36). -/

namespace Sys2Proof.Machine

/-! The top byte of a 32-byte string. -/

theorem leNat_append (xs ys : List Byte) : leNat (xs ++ ys) = leNat xs + 256 ^ xs.length * leNat ys := by
  induction xs with
  | nil => simp [leNat]
  | cons x xs ih =>
    simp only [List.cons_append, leNat, ih, List.length_cons, Nat.pow_succ']
    ring

/-- R9: byte 31 counts `2^248` times. -/
theorem leNat_bytes32 (B : Bytes 32) : leNat B.toList = leNat (B.toList.take 31) + 2 ^ 248 * (B[31]).toNat := by
  have hsplit : B.toList = B.toList.take 31 ++ [B[31]] := by
    rw [← Vector.getElem_toList (by simp), List.take_append_getElem, List.take_of_length_le (by simp)]
  have hlen : (B.toList.take 31).length = 31 := by simp
  conv_lhs => rw [hsplit, leNat_append, hlen]
  norm_num [leNat]

theorem take_toList_set_31 (B : Bytes 32) (b : Byte) : ((B.set 31 b).toList).take 31 = B.toList.take 31 := by
  rw [Vector.toList_set, List.take_set_of_le (Nat.le_refl 31)]

/-- XOR into bit 7 keeps the low seven bits. -/
theorem toNat_xor_shiftToHighBit_mod (b : Byte) (sign : Bool) : (b ^^^ shiftToHighBit sign).toNat % 128 = b.toNat % 128 := by
  cases sign with
  | false => simp [shiftToHighBit]
  | true =>
    rw [BitVec.toNat_xor, show (128 : Nat) = 2 ^ 7 by rfl, Nat.xor_mod_two_pow]
    simp [shiftToHighBit]

theorem highBit_xor_shiftToHighBit (b : Byte) (sign : Bool) : highBit (b ^^^ shiftToHighBit sign) = (highBit b ^^ sign) := by
  cases sign <;> simp [highBit, shiftToHighBit]

/-- R24: the lower 255 bits of a string do not see an XOR into bit 255. -/
theorem leNat_xor_bit255_mod (B : Bytes 32) (sign : Bool) :
    leNat (B.set 31 (B[31] ^^^ shiftToHighBit sign)).toList % 2 ^ 255 = leNat B.toList % 2 ^ 255 := by
  have hbyte := toNat_xor_shiftToHighBit_mod B[31] sign
  rw [leNat_bytes32, leNat_bytes32 B, take_toList_set_31, Vector.getElem_set_self]
  omega

namespace Reference

/-! The arithmetic the corners need. -/

theorem powMod_one (fuel e : Nat) : powMod fuel 1 e = 1 := by
  induction fuel generalizing e with
  | zero => rfl
  | succ fuel ih =>
    have hone : 1 * 1 % fieldPrime = 1 := rfl
    simp only [powMod, hone, ih, ite_self]

theorem inv_one : inv 1 = 1 := powMod_one _ _

/-- `0 - 1 = p - 1 (mod p)`, the y coordinate of u = 0. -/
theorem subMod_zero_one : subMod 0 1 = fieldPrime - 1 := by decide

/-- `(p - 1)² = 1 (mod p)`. -/
theorem subMod_sq_pred_fieldPrime : subMod ((fieldPrime - 1) * (fieldPrime - 1)) 1 = 0 := by decide

/-- R24: a residue mod `p` survives its encoding. -/
theorem leNat_enc32_mod {k : Nat} (h : k < fieldPrime) : leNat (enc32 k).toList % 2 ^ 255 % fieldPrime = k := by
  unfold fieldPrime at h ⊢
  rw [leNat_enc32 (by omega)]
  omega

/-- R24: bit 255 of an encoded residue is clear. -/
theorem highBit_enc32_fieldPrime_pred : highBit (enc32 (fieldPrime - 1))[31] = false := by
  rw [enc32_getElem]
  decide

/-- R24: where `y² = 1` the root is 0, and the answer turns on the sign bit and X0_SIGN1 alone. -/
theorem decompress_of_sq_eq_one {x0 : X0Sign1} {yb : Bytes 32} {y : Nat}
    (hy : leNat yb.toList % 2 ^ 255 % fieldPrime = y) (hsq : subMod (y * y) 1 = 0) :
    decompress x0 yb = if highBit yb[31] = true ∧ x0 = .reject then none else some { x := 0, y := y } := by
  simp only [decompress, hy, hsq, Nat.zero_mul, Nat.zero_mod, if_true]

/-- R24: what MontToEd hands to Decompress when `u ≠ p - 1`. -/
theorem montToEd_of_residue {x0 : X0Sign1} {uBytes : Bytes 32} {sign : Bool} {u y : Nat}
    (hu : leNat uBytes.toList % 2 ^ 255 % fieldPrime = u) (hne : u ≠ fieldPrime - 1)
    (hy : subMod u 1 * inv ((u + 1) % fieldPrime) % fieldPrime = y) :
    montToEd x0 uBytes sign = decompress x0 ((enc32 y).set 31 ((enc32 y)[31] ^^^ shiftToHighBit sign)) := by
  simp only [montToEd, hu, hne, if_false, hy]

theorem montToEd_pred_fieldPrime {x0 : X0Sign1} {uBytes : Bytes 32} {sign : Bool}
    (hu : leNat uBytes.toList % 2 ^ 255 % fieldPrime = fieldPrime - 1) : montToEd x0 uBytes sign = none := by
  simp only [montToEd, hu, if_true]

/-- R24: the map reads u through its residue mod `p` only. -/
theorem montToEd_congr {u v : Bytes 32} (h : leNat u.toList % 2 ^ 255 = leNat v.toList % 2 ^ 255) (x0 : X0Sign1)
    (sign : Bool) : montToEd x0 u sign = montToEd x0 v sign := by
  simp only [montToEd, h]

/-- R24, R123: u = 0 goes to the point (0, -1), of order 2, whose sign bit X0_SIGN1 rules on. -/
theorem montToEd_zero (x0 : X0Sign1) (sign : Bool) :
    montToEd x0 (enc32 0) sign =
      if sign = true ∧ x0 = .reject then none else some { x := 0, y := fieldPrime - 1 } := by
  have hu : leNat (enc32 0).toList % 2 ^ 255 % fieldPrime = 0 := leNat_enc32_mod (by decide)
  have hy : subMod 0 1 * inv ((0 + 1) % fieldPrime) % fieldPrime = fieldPrime - 1 := by
    rw [show (0 + 1) % fieldPrime = 1 by rfl, inv_one, subMod_zero_one]
    rfl
  have hyb : leNat ((enc32 (fieldPrime - 1)).set 31 ((enc32 (fieldPrime - 1))[31] ^^^ shiftToHighBit sign)).toList
      % 2 ^ 255 % fieldPrime = fieldPrime - 1 := by
    rw [leNat_xor_bit255_mod, leNat_enc32_mod (by decide)]
  rw [montToEd_of_residue hu (by decide) hy, decompress_of_sq_eq_one hyb subMod_sq_pred_fieldPrime,
    Vector.getElem_set_self, highBit_xor_shiftToHighBit, highBit_enc32_fieldPrime_pred, Bool.false_xor]

/-- Settles O34: the two strings agree on their lower 255 bits, all that the map reads of u. -/
theorem referenceMapIgnoresTopBit : Obligations.ReferenceMapIgnoresTopBit := by
  intro x0 u sign
  exact montToEd_congr (leNat_xor_bit255_mod u true) x0 sign

/-- Settles O36: `p - 1` is the excluded residue, and u = 0 goes to a point with x = 0. -/
theorem referenceMapCorners : Obligations.ReferenceMapCorners := by
  refine ⟨fun x0 sign => montToEd_pred_fieldPrime (leNat_enc32_mod (by decide)), fun x0 sign => ?_⟩
  simp [montToEd_zero]

end Reference
end Sys2Proof.Machine
end

