-- ==== Sys2Proof/Proofs/StateSteps.lean ====
section
/-! PROOFS. spec/10_state.md as facts about the step: its inversion by events, the two invariants of the state (O58 to O60),
which event writes which state (O49 to O52), the engine's own turns (O6 to O9), and what the host writes and sees (O37, O39
to O42, O53). -/

namespace Sys2Proof.Machine

/-! ## What a step leaves, one case per event: the inversion of `step` that the invariants of spec/10_state.md go through. -/

/-! A host write: to CMD, or to any other word. -/

theorem portWrite_cmd {c : Config} {s : State} {a : Addr} {v : Word} (h : wordAddr a = 0) :
    portWrite c s a v = commandWrite v s :=
  portWrite_reg (r := .cmd) h

/-- R68: a write to another word than CMD is a store; STATUS and the phase stay. -/
theorem portWrite_store_control {c : Config} {s : State} {a : Addr} (v : Word) (h : wordAddr a ≠ 0) :
    (portWrite c s a v).status = s.status ∧ (portWrite c s a v).phase = s.phase := by
  rcases portWrite_cases c s a v with ⟨h0, _⟩ | ⟨_, e⟩ | ⟨_, e⟩ | ⟨_, e⟩ | ⟨_, e⟩ | ⟨_, e⟩ | ⟨_, e⟩
  · exact absurd h0 h
  all_goals rw [e]; exact ⟨rfl, rfl⟩

theorem writeReg_mem (s : State) (v : Word) (r : Reg) : (writeReg s v r).mem = s.mem := by
  cases r with
  | cmd => exact commandWrite_mem v s
  | _ => rfl

theorem portWrite_mem_cases (c : Config) (s : State) (a : Addr) (v : Word) :
    (portWrite c s a v).mem = s.mem ∨ (portWrite c s a v).mem = hostWriteBytes c s.mem (wordAddr a) v := by
  unfold portWrite
  split
  · exact .inl (writeReg_mem s v _)
  · exact .inr rfl

/-! The step, by the turn it takes. -/

theorem popped_of_cons {s : State} {turn : Turn} {rest : List Turn} (h : s.turns = turn :: rest) :
    s.popped = { s with turns := rest } := by
  simp [State.popped, h]

theorem step_nil {s : State} (h : s.turns = []) : step s = engineTurn s := by simp [step, h]

theorem step_engine {s : State} {rest : List Turn} (h : s.turns = .engine :: rest) :
    step s = engineTurn s.popped := by simp [step, h, popped_of_cons h]

theorem step_read {s : State} {a : Addr} {rest : List Turn} (h : s.turns = .read a :: rest) :
    step s = .next (readTurn Config.impl s.popped a) := by simp [step, h, popped_of_cons h]

theorem step_write {s : State} {a : Addr} {v : Word} {rest : List Turn} (h : s.turns = .write a v :: rest) :
    step s = .next (portWrite Config.impl s.popped a v) := by simp [step, h, popped_of_cons h]

theorem engineTurn_decoded {s : State} {x : Snapshot} {i : Instr} (hp : s.phase = .busy x) (hd : decode x.cmd = .ok i) :
    engineTurn s = exec i s := by
  simp [engineTurn, hp, hd]

/-- The events of R31, R51 to R53, R61 and R210, each with the state it leaves. -/
inductive StepEffect (s : State) : State → Prop where
  | rest (hturn : s.engineHasTurn) (hphase : s.phase = .idle) : StepEffect s s.popped
  | complete (x : Snapshot) (hturn : s.engineHasTurn) (hphase : s.phase = .busy x) :
      StepEffect s (complete (executeResult x) s.popped)
  | read (a : Addr) (hturn : s.turns.head? = some (.read a)) : StepEffect s (readTurn Config.impl s.popped a)
  | accept (a : Addr) (v : Word) (hturn : s.turns.head? = some (.write a v)) (hcmd : wordAddr a = 0)
      (hphase : s.phase = .idle) : StepEffect s (accept v s.popped)
  | drop (a : Addr) (v : Word) (x : Snapshot) (hturn : s.turns.head? = some (.write a v)) (hcmd : wordAddr a = 0)
      (hphase : s.phase = .busy x) : StepEffect s (dropCommand s.popped)
  | store (a : Addr) (v : Word) (hturn : s.turns.head? = some (.write a v)) (hdata : wordAddr a ≠ 0) :
      StepEffect s (portWrite Config.impl s.popped a v)
  | reset (hturn : s.turns.head? = some .reset) : StepEffect s (resetTurn s.popped)

/-- A host write is an acceptance, a dropped command or a store (R46, R68). -/
theorem stepEffect_portWrite {s : State} {a : Addr} {v : Word} (hturn : s.turns.head? = some (.write a v)) :
    StepEffect s (portWrite Config.impl s.popped a v) := by
  by_cases hcmd : wordAddr a = 0
  · rw [portWrite_cmd hcmd]
    cases hp : s.phase with
    | idle => rw [commandWrite_idle (s := s.popped) hp]; exact .accept a v hturn hcmd hp
    | busy x => rw [commandWrite_busy (s := s.popped) hp]; exact .drop a v x hturn hcmd hp
  · exact .store a v hturn hcmd

theorem exists_stepEffect (s : State) : ∃ t, step s = .next t ∧ StepEffect s t := by
  rcases step_cases s with ⟨ht, hp, h⟩ | ⟨x, ht, hp, h⟩ | ⟨a, ht, h⟩ | ⟨a, v, ht, h⟩ | ⟨ht, h⟩
  · exact ⟨_, h, .rest ht hp⟩
  · exact ⟨_, h, .complete x ht hp⟩
  · exact ⟨_, h, .read a ht⟩
  · exact ⟨_, h, stepEffect_portWrite ht⟩
  · exact ⟨_, h, .reset ht⟩

theorem stepEffect_of_step {s t : State} (h : step s = .next t) : StepEffect s t := by
  obtain ⟨t', hstep, heffect⟩ := exists_stepEffect s
  rw [h] at hstep
  cases hstep
  exact heffect

/-! ## The two invariants of the state and their base case: the memories' canonical form (O59), the agreement of OUT,
OUT_LEN and STATUS (O60), and reset (O58). -/

/-! The cells of every memory lie in buffers (R63, R64). -/

theorem isSome_bufferAt_out {c : Config} {a : Nat} (h : 0x100 ≤ a ∧ a < 0x140) : (bufferAt c a).isSome = true := by
  have hout : bufferAt c a = some .out := bufferAt_eq_some_iff.2 (by simp; omega)
  rw [hout]
  rfl

theorem mapped_complete {c : Config} (r : CmdResult) {s : State} (h : s.mem.mapped c) : (complete r s).mem.mapped c := by
  intro cell hcell
  rcases mem_complete hcell with hold | hout
  · exact h cell hold
  · exact isSome_bufferAt_out hout

theorem mapped_hostWriteBytes {c : Config} {m : Memory} (w : Nat) (v : Word) (h : m.mapped c) :
    (hostWriteBytes c m w v).mapped c := by
  intro cell hcell
  rcases mem_hostWriteBytes hcell with hold | ⟨buf, hbuf, _⟩
  · exact h cell hold
  · rw [hbuf]; rfl

theorem mapped_inputCells {c : Config} {m : Memory} (h : m.mapped c) : (inputCells m).mapped c :=
  fun cell hcell => h cell (List.mem_filter.1 hcell).1

theorem wf_portWrite {c : Config} {s : State} (a : Addr) (v : Word) (h : s.mem.wf) : (portWrite c s a v).mem.wf := by
  rcases portWrite_mem_cases c s a v with e | e <;> rw [e]
  · exact h
  · exact wf_hostWriteBytes _ _ h

theorem mapped_portWrite {c : Config} {s : State} (a : Addr) (v : Word) (h : s.mem.mapped c) :
    (portWrite c s a v).mem.mapped c := by
  rcases portWrite_mem_cases c s a v with e | e <;> rw [e]
  · exact h
  · exact mapped_hostWriteBytes _ _ h

/-- R51: the snapshot of a canonical memory is canonical, and holds input buffers only. -/
theorem wf_snapshotOf {c : Config} {s : State} (w : Word) (hwf : s.mem.wf) (hmapped : s.mem.mapped c) :
    (snapshotOf s w).wf c :=
  ⟨wf_inputCells hwf, mapped_inputCells hmapped, inputOnly_inputCells _⟩

theorem memoriesWf_reset (c : Config) : State.reset.memoriesWf c :=
  ⟨Memory.wf_nil, fun _ h => absurd h List.not_mem_nil, fun _ h => by cases h⟩

/-- Settles O59: one case per event of the step; only stores and completions write memory, and only an acceptance makes a
snapshot. -/
theorem stepKeepsMemoriesWf : Obligations.StepKeepsMemoriesWf := by
  intro s t hs hstep
  obtain ⟨hwf, hmapped, hsnap⟩ := hs
  cases stepEffect_of_step hstep with
  | rest => exact ⟨hwf, hmapped, hsnap⟩
  | complete x =>
    refine ⟨wf_complete _ _ hwf, mapped_complete _ hmapped, fun y hy => ?_⟩
    rw [complete_phase] at hy
    cases hy
  | read => exact ⟨hwf, hmapped, hsnap⟩
  | accept a v =>
    refine ⟨hwf, hmapped, fun y hy => ?_⟩
    cases hy
    exact wf_snapshotOf v hwf hmapped
  | drop => exact ⟨hwf, hmapped, hsnap⟩
  | store a v _ hdata =>
    have hphase := (portWrite_store_control (c := Config.impl) (s := s.popped) v hdata).2
    exact ⟨wf_portWrite a v hwf, mapped_portWrite a v hmapped, fun y hy => hsnap y (hphase ▸ hy)⟩
  | reset => exact memoriesWf_reset _

/-! What a command can answer (R38, R44). -/

/-- A result that OUT_LEN and VOK can report: 0, 32, 33 or 64 bytes (R38), and no byte beside a valid signature (R44). -/
def CmdResult.Legal : CmdResult → Prop
  | .ok o _ vok => (o.length = 0 ∨ o.length = 32 ∨ o.length = 33 ∨ o.length = 64) ∧ (vok = true → o = [])
  | .err _ _ => True

@[simp] theorem legal_err (e : ErrCode) (w : Bool) : (CmdResult.err e w).Legal := trivial

@[simp] theorem legal_raise (e : ErrCode) : (raise e).Legal := trivial

@[simp] theorem legal_ok_bytes32 (o : Bytes 32) (w : Bool) : (CmdResult.ok o.toList w false).Legal := by
  simp [CmdResult.Legal]

@[simp] theorem legal_ok_bytes33 (o : Bytes 33) (w : Bool) : (CmdResult.ok o.toList w false).Legal := by
  simp [CmdResult.Legal]

@[simp] theorem legal_ok_bytes64 (o : Bytes 64) (w : Bool) : (CmdResult.ok o.toList w false).Legal := by
  simp [CmdResult.Legal]

@[simp] theorem legal_ok_nil (w v : Bool) : (CmdResult.ok [] w v).Legal := by
  simp [CmdResult.Legal]

theorem legal_clampCmd (x : Snapshot) : (clampCmd x).Legal := by
  unfold clampCmd
  split <;> simp

theorem legal_decodePubCmd (x : Snapshot) : (decodePubCmd x).Legal := by
  unfold decodePubCmd
  split <;> simp

theorem legal_edFromMontCmd (c : Config) (sign : Bool) (x : Snapshot) : (edFromMontCmd c sign x).Legal := by
  unfold edFromMontCmd
  split <;> simp

theorem legal_signCmd (c : Config) (x : Snapshot) : (signCmd c x).Legal := by
  unfold signCmd
  split_ifs <;> simp

theorem legal_verifyCmd (c : Config) (x : Snapshot) : (verifyCmd c x).Legal := by
  unfold verifyCmd
  split_ifs
  · exact legal_raise _
  · exact legal_raise _
  · split
    · exact legal_raise _
    · split
      · exact legal_err _ _
      · exact legal_ok_nil _ _

theorem legal_resultOf (i : Instr) (x : Snapshot) : (resultOf i x).Legal := by
  cases i with
  | clamp => exact legal_clampCmd x
  | encodePub => exact legal_ok_bytes33 _ _
  | decodePub => exact legal_decodePubCmd x
  | edFromMont sign => exact legal_edFromMontCmd _ sign x
  | sign => exact legal_signCmd _ x
  | verify => exact legal_verifyCmd _ x

theorem legal_executeResult (x : Snapshot) : (executeResult x).Legal := by
  unfold executeResult
  split
  · exact legal_resultOf _ x
  · exact legal_raise _

/-! OUT, OUT_LEN and STATUS together. -/

theorem errCode_toNat_le (e : ErrCode) : e.code.toNat ≤ 3 := by
  cases e <;> decide

/-- A completion writes all that the agreement speaks of, so it needs nothing of the state before it (R52). -/
theorem resultConsistent_complete {r : CmdResult} (hr : r.Legal) (s : State) : (complete r s).ResultConsistent := by
  cases r with
  | ok o w v =>
    obtain ⟨hlen, hvok⟩ := hr
    have hlt : o.length < 2 ^ 16 := by omega
    refine ⟨?_, fun i hi hle => ?_, by simp, by simp, by simp, fun hv => ?_, by simp⟩
    · rw [complete_ok_outLen]
      rcases hlen with h | h | h | h <;> simp [h]
    · rw [complete_ok_outLen, BitVec.toNat_ofNat, Nat.mod_eq_of_lt hlt] at hle
      rw [read_complete_out _ _ hi]
      exact List.getD_eq_default _ _ hle
    · rw [complete_ok_status, succeeded_vok] at hv
      simp [hvok hv]
  | err e w =>
    refine ⟨by simp, fun i hi _ => ?_, ?_, by simp, by simp, by simp, by simp⟩
    · rw [read_complete_out _ _ hi]
      rfl
    · simpa using errCode_toNat_le e

/-- Only OUT, OUT_LEN, STATUS and the phase bear on the agreement. -/
theorem State.ResultConsistent.congr {s t : State} (h : s.ResultConsistent) (hlen : t.outLen = s.outLen)
    (hout : ∀ i, i < 64 → t.mem.read (0x100 + i) = s.mem.read (0x100 + i)) (hstatus : t.status = s.status)
    (hphase : t.phase = s.phase) : t.ResultConsistent where
  outLen_legal := hlen ▸ h.outLen_legal
  out_padded i hi hle := by rw [hout i hi]; exact h.out_padded i hi (hlen ▸ hle)
  err_legal := hstatus ▸ h.err_legal
  busy_clear := by rw [hphase, hstatus]; exact h.busy_clear
  err_no_output := by rw [hstatus, hlen]; exact h.err_no_output
  vok_no_output := by rw [hstatus, hlen]; exact h.vok_no_output
  fresh := by rw [hphase, hstatus, hlen]; exact h.fresh

/-- Acceptance clears STATUS and keeps OUT and OUT_LEN (R51). -/
theorem resultConsistent_accept (w : Word) {s : State} (h : s.ResultConsistent) : (accept w s).ResultConsistent where
  outLen_legal := h.outLen_legal
  out_padded := h.out_padded
  err_legal := by simp
  busy_clear := by simp
  err_no_output := by simp
  vok_no_output := by simp
  fresh := by simp

/-- A dropped command sets OVR, which agrees with anything while BUSY (R53). -/
theorem resultConsistent_dropCommand {s : State} {x : Snapshot} (hbusy : s.phase = .busy x) (h : s.ResultConsistent) :
    (dropCommand s).ResultConsistent where
  outLen_legal := h.outLen_legal
  out_padded := h.out_padded
  err_legal := h.err_legal
  busy_clear := h.busy_clear
  err_no_output := h.err_no_output
  vok_no_output := h.vok_no_output
  fresh := by simp [hbusy]

theorem resultConsistent_reset : State.reset.ResultConsistent where
  outLen_legal := .inl rfl
  out_padded _ _ _ := rfl
  err_legal := by decide
  busy_clear h := by cases h
  err_no_output h := absurd rfl h
  vok_no_output h := by cases h
  fresh _ _ := ⟨rfl, rfl⟩

/-- Settles O60: one case per event of the step; a completion writes all of OUT, OUT_LEN and STATUS, and a store none of
it. -/
theorem stepKeepsResultConsistent : Obligations.StepKeepsResultConsistent := by
  intro s t hs hstep
  have hpopped : s.popped.ResultConsistent := hs.congr rfl (fun _ _ => rfl) rfl rfl
  cases stepEffect_of_step hstep with
  | rest => exact hpopped
  | complete x => exact resultConsistent_complete (legal_executeResult x) _
  | read a => exact hpopped.congr rfl (fun _ _ => rfl) rfl rfl
  | accept a v => exact resultConsistent_accept v hpopped
  | drop a v x _ _ hphase => exact resultConsistent_dropCommand (x := x) hphase hpopped
  | store a v _ hdata =>
    obtain ⟨hstatus, hphase⟩ := portWrite_store_control (c := Config.impl) (s := s.popped) v hdata
    exact hpopped.congr (portWrite_outLen ..) (fun i hi => portWrite_out _ _ _ _ (by omega)) hstatus hphase
  | reset => exact resultConsistent_reset.congr rfl (fun _ _ => rfl) rfl rfl

/-- Settles O58: the base case of O59 and O60. -/
theorem resetIsWellFormed : Obligations.ResetIsWellFormed :=
  ⟨memoriesWf_reset _, resultConsistent_reset⟩

/-! ## Which event writes which state: OUT (O49), OVR (O50), the phase (O51), the inputs (O52); and the engine's own
turns (O6 to O9). -/

/-- Settles O8: every event leaves a next state, and an IDLE engine's turn is the event that leaves all but the list. -/
theorem stepAlwaysAnswersNext : Obligations.StepAlwaysAnswersNext := by
  intro s
  obtain ⟨t, hstep, heffect⟩ := exists_stepEffect s
  refine ⟨⟨t, hstep⟩, fun hidle hturn => ?_⟩
  rw [hstep]
  cases heffect with
  | rest => rfl
  | complete x _ hphase => simp [hidle] at hphase
  | read a ht => simp [ht] at hturn
  | accept a v ht => simp [ht] at hturn
  | drop a v x ht => simp [ht] at hturn
  | store a v ht => simp [ht] at hturn
  | reset ht => simp [ht] at hturn

/-- Settles O49: every event but a BUSY engine's turn and a reset leaves OUT_LEN and OUT alone. -/
theorem outputWrittenByCompletionOrReset : Obligations.OutputWrittenByCompletionOrReset := by
  intro s t hstep hchange
  have unchanged (hlen : t.outLen = s.outLen)
      (hout : ∀ i, i < 64 → t.mem.read (0x100 + i) = s.mem.read (0x100 + i)) : False := by
    rcases hchange with h | ⟨i, hi, h⟩
    · exact h hlen
    · exact h (hout i hi)
  cases stepEffect_of_step hstep with
  | rest => exact (unchanged rfl fun _ _ => rfl).elim
  | complete x hturn hphase => exact .inl ⟨by rw [hphase]; rfl, hturn⟩
  | read => exact (unchanged rfl fun _ _ => rfl).elim
  | accept => exact (unchanged rfl fun _ _ => rfl).elim
  | drop => exact (unchanged rfl fun _ _ => rfl).elim
  | store => exact (unchanged (portWrite_outLen ..) fun i hi => portWrite_out _ _ _ _ (by omega)).elim
  | reset hturn => exact .inr hturn

/-- Settles O50: every event but the dropped command keeps OVR or clears it. -/
theorem overrunOnlyFromBusyCommand : Obligations.OverrunOnlyFromBusyCommand := by
  intro s t hstep hbefore hafter
  cases stepEffect_of_step hstep with
  | rest => simp [hbefore] at hafter
  | complete x => simp [hbefore] at hafter
  | read => simp [hbefore] at hafter
  | accept => simp at hafter
  | drop a v x hturn hcmd hphase => exact ⟨by rw [hphase]; rfl, a, v, hturn, hcmd⟩
  | store a v _ hdata => simp [portWrite_store_control v hdata, hbefore] at hafter
  | reset => simp [Status.reset] at hafter

/-- Settles O51: an acceptance alone starts the engine; a completion and reset alone end its snapshot. -/
theorem phaseChangesOnlyByItsEvents : Obligations.PhaseChangesOnlyByItsEvents := by
  intro s t hstep
  cases stepEffect_of_step hstep with
  | rest => exact ⟨fun hidle hne => absurd hidle hne, fun x hx => .inl hx⟩
  | complete y hturn hphase =>
    refine ⟨fun hidle => by simp [hidle] at hphase, fun x _ => .inr ⟨complete_phase .., ?_⟩⟩
    exact hturn.imp_right .inl
  | read => exact ⟨fun hidle hne => absurd hidle hne, fun x hx => .inl hx⟩
  | accept a v hturn hcmd hphase => exact ⟨fun _ _ => ⟨a, v, hturn, hcmd⟩, fun x hx => by simp [hphase] at hx⟩
  | drop => exact ⟨fun hidle hne => absurd hidle hne, fun x hx => .inl hx⟩
  | store a v _ hdata =>
    rw [(portWrite_store_control v hdata).2]
    exact ⟨fun hidle hne => absurd hidle hne, fun x hx => .inl hx⟩
  | reset hturn => exact ⟨fun _ hne => absurd rfl hne, fun x _ => .inr ⟨rfl, .inr (.inr hturn)⟩⟩

/-- Settles O52: of the events that are neither a host write nor a reset, only a completion writes, and its frame keeps the
inputs. -/
theorem inputsWrittenByHostOnly : Obligations.InputsWrittenByHostOnly := by
  intro s t hstep hwrite hreset
  cases stepEffect_of_step hstep with
  | rest => exact ⟨rfl, rfl, rfl, rfl, fun _ _ => rfl⟩
  | complete x =>
    have frame := frame_complete (executeResult x) s.popped
    exact ⟨frame.skLen, frame.pkLen, frame.sigLen, frame.msgLen, frame.mem⟩
  | read => exact ⟨rfl, rfl, rfl, rfl, fun _ _ => rfl⟩
  | accept a v hturn => exact absurd hturn (hwrite a v)
  | drop a v _ hturn => exact absurd hturn (hwrite a v)
  | store a v hturn => exact absurd hturn (hwrite a v)
  | reset hturn => exact absurd hturn hreset

/-- Settles O6: the engine's turn decodes the snapshot's word. -/
theorem stepRunsDecodedCommand : Obligations.StepRunsDecodedCommand := by
  intro s x i rest hphase hdecode
  refine ⟨fun hturns => ?_, fun hturns => ?_⟩
  · rw [step_nil hturns, engineTurn_decoded hphase hdecode]
  · rw [step_engine hturns, engineTurn_decoded (s := s.popped) hphase hdecode, popped_of_cons hturns]

theorem decode_of_decodeTableWord {nbits w : Nat} {i : Instr} (h : decodeTableWord nbits w = some i) :
    decode (wordOfBytes (tableBytes nbits w)) = .ok i := by
  unfold decodeTableWord at h
  split at h
  · next hdecode => rw [hdecode, Option.some.inj h]
  · cases h

/-- Settles O7: `withFetchWord` leaves the engine BUSY with the word and the turn. -/
theorem fetchedWordRunsNext : Obligations.FetchedWordRunsNext := by
  intro s nbits w i h
  have hturns : (s.withFetchWord nbits w).turns = [] := rfl
  have hphase : (s.withFetchWord nbits w).phase = .busy (snapshotOf s (wordOfBytes (tableBytes nbits w))) := rfl
  rw [step_nil hturns, engineTurn_decoded hphase (decode_of_decodeTableWord h)]

/-- Settles O9: every meaning is a `finish`, which stops while IDLE. -/
theorem idleEngineStopsByName : Obligations.IdleEngineStopsByName := by
  intro i s hidle
  rw [exec_eq_finish, finish_idle hidle]

/-! ## What the host writes and sees: commands (O39, O40), the registers (O37, O41, O42), and the snapshot it does not
see (O53). -/

/-! Writes to CMD. -/

/-- R51: every byte of an input buffer stands in the snapshot. -/
theorem read_snapshotOf {c : Config} (s : State) (w : Word) {b : Buffer} {k : Nat} (hb : b ≠ .out) (hk : k < b.size c) :
    (snapshotOf s w).mem.read (b.base + k) = s.mem.read (b.base + k) := by
  rw [snapshotOf_mem, read_inputCells, if_neg]
  rintro ⟨hlow, hhigh⟩
  have hout : Buffer.out.holds c (b.base + k) = true := (holds_iff ..).2 (by simp; omega)
  exact hb (holds_unique ((holds_iff ..).2 (by omega)) hout)

/-- Settles O39: the step is the acceptance of the word. -/
theorem acceptanceSnapshots : Obligations.AcceptanceSnapshots := by
  intro s a w rest hidle hturns hcmd
  refine ⟨snapshotOf s w, accept w { s with turns := rest }, ?_, rfl, rfl, rfl, rfl, rfl, rfl, ?_, rfl⟩
  · rw [step_write hturns, portWrite_cmd hcmd, commandWrite_idle (s := s.popped) hidle, popped_of_cons hturns]
  · exact fun b k hb hk => read_snapshotOf s w hb hk

/-- Settles O40: the step is the dropping of the word. -/
theorem busyCommandDropped : Obligations.BusyCommandDropped := by
  intro s x a w rest hbusy hturns hcmd
  rw [step_write hturns, portWrite_cmd hcmd, commandWrite_busy (s := s.popped) hbusy, popped_of_cons hturns]
  rfl

/-! The registers. -/

/-- Settles O41: each address is its register's. -/
theorem lengthRegistersHoldHalves : Obligations.LengthRegistersHoldHalves := by
  intro c s v
  exact ⟨portWrite_reg (r := .skLen) rfl, portWrite_reg (r := .pkLen) rfl, portWrite_reg (r := .sigLen) rfl,
    portWrite_reg (r := .msgLen) rfl, portRead_reg (r := .skLen) rfl, portRead_reg (r := .pkLen) rfl,
    portRead_reg (r := .sigLen) rfl, portRead_reg (r := .msgLen) rfl, portRead_reg (r := .outLen) rfl⟩

theorem hostReadByte_nil (c : Config) (a : Nat) : hostReadByte c [] a = 0 := by
  unfold hostReadByte
  split <;> rfl

theorem hostReadBytes_nil (c : Config) (w : Nat) : hostReadBytes c [] w = 0 := by
  simp only [hostReadBytes, hostReadByte_nil]
  rfl

theorem readReg_reset (r : Reg) : readReg State.reset r = 0 := by
  cases r <;> rfl

/-- R49, R64: every word of the register space reads 0 after reset. -/
theorem portRead_reset (c : Config) (a : Addr) : portRead c State.reset a = 0 := by
  unfold portRead
  split
  · exact readReg_reset _
  · exact hostReadBytes_nil c _

/-- Settles O37: reset's fields are 0 as written, and every word reads 0. -/
theorem resetReadsZero : Obligations.ResetReadsZero :=
  ⟨rfl, rfl, rfl, rfl, rfl, rfl, rfl, fun _ => rfl, portRead_reset⟩

/-- R39: bit by bit, the word of STATUS. -/
theorem toWord_bits (st : Status) (busy : Bool) :
    (st.toWord busy).getLsbD 0 = busy ∧ (st.toWord busy).getLsbD 1 = st.done ∧
      (st.toWord busy).extractLsb' 2 3 = st.err ∧ (st.toWord busy).getLsbD 5 = st.warn ∧
      (st.toWord busy).getLsbD 6 = st.vok ∧ (st.toWord busy).getLsbD 7 = st.ovr ∧
      (st.toWord busy).extractLsb' 8 24 = 0 := by
  -- STATUS and BUSY have 2^8 values together
  obtain ⟨done, err, warn, vok, ovr⟩ := st
  revert done err warn vok ovr busy
  decide

/-- Settles O42: the word read at 0x0004 is that of STATUS and the phase. -/
theorem statusWordBits : Obligations.StatusWordBits := by
  intro c s w
  have hw : w = s.status.toWord s.phase.isBusy := portRead_reg (r := .status) rfl
  rw [hw]
  exact toWord_bits _ _

/-! The snapshot is hidden (R48). -/

/-- The state with another snapshot in its engine. -/
def State.withSnapshot (s : State) (y : Snapshot) : State := { s with phase := .busy y }

theorem readReg_withSnapshot {s : State} {x : Snapshot} (h : s.phase = .busy x) (y : Snapshot) (r : Reg) :
    readReg (s.withSnapshot y) r = readReg s r := by
  cases r with
  | status => simp [readReg, State.withSnapshot, h]
  | _ => rfl

/-- R48: a host read while BUSY does not see the snapshot. -/
theorem portRead_withSnapshot {c : Config} {s : State} {x : Snapshot} (h : s.phase = .busy x) (y : Snapshot) (a : Addr) :
    portRead c (s.withSnapshot y) a = portRead c s a := by
  unfold portRead
  split
  · exact readReg_withSnapshot h y _
  · rfl

theorem readTurn_withSnapshot {c : Config} {s : State} {x : Snapshot} (h : s.phase = .busy x) (y : Snapshot) (a : Addr) :
    readTurn c (s.withSnapshot y) a = (readTurn c s a).withSnapshot y := by
  simp only [readTurn, portRead_withSnapshot h]
  rfl

theorem writeReg_withSnapshot {s : State} {x : Snapshot} (h : s.phase = .busy x) (y : Snapshot) (v : Word) (r : Reg) :
    writeReg (s.withSnapshot y) v r = (writeReg s v r).withSnapshot y := by
  cases r with
  | cmd =>
    simp only [writeReg]
    rw [commandWrite_busy h, commandWrite_busy (x := y) rfl]
    rfl
  | _ => rfl

/-- R48, R53: a host write while BUSY neither reads nor changes the snapshot. -/
theorem portWrite_withSnapshot {c : Config} {s : State} {x : Snapshot} (h : s.phase = .busy x) (y : Snapshot) (a : Addr)
    (v : Word) : portWrite c (s.withSnapshot y) a v = (portWrite c s a v).withSnapshot y := by
  unfold portWrite
  split
  · exact writeReg_withSnapshot h y v _
  · rfl

theorem portWrite_phase_busy {c : Config} {s : State} {x : Snapshot} (h : s.phase = .busy x) (a : Addr) (v : Word) :
    (portWrite c s a v).phase = .busy x := by
  by_cases hcmd : wordAddr a = 0
  · rw [portWrite_cmd hcmd, commandWrite_busy h, dropCommand_phase, h]
  · rw [(portWrite_store_control v hcmd).2, h]

/-- A port turn of a BUSY block: the snapshot stays, and another snapshot gives the same step but for itself. -/
theorem step_withSnapshot {s : State} {x : Snapshot} {turn : Turn} {rest : List Turn} (hbusy : s.phase = .busy x)
    (hturns : s.turns = turn :: rest) (hport : turn ≠ .engine ∧ turn ≠ .reset) (y : Snapshot) :
    ∃ t, step s = .next t ∧ step (s.withSnapshot y) = .next (t.withSnapshot y) ∧ t.phase = .busy x ∧ t.turns = rest := by
  have hturns' : (s.withSnapshot y).turns = turn :: rest := hturns
  have hrest : s.popped.turns = rest := by rw [popped_turns, hturns, List.tail_cons]
  cases turn with
  | read a =>
    refine ⟨_, step_read hturns, ?_, hbusy, hrest⟩
    rw [step_read hturns']
    exact congrArg _ (readTurn_withSnapshot (s := s.popped) hbusy y a)
  | write a v =>
    refine ⟨_, step_write hturns, ?_, portWrite_phase_busy (s := s.popped) hbusy a v, (portWrite_turns ..).trans hrest⟩
    rw [step_write hturns']
    exact congrArg _ (portWrite_withSnapshot (s := s.popped) hbusy y a v)
  | engine => exact absurd rfl hport.1
  | reset => exact absurd rfl hport.2

/-- Over port turns alone, a run with another snapshot is the same run but for that snapshot. -/
theorem run_withSnapshot {n : Nat} {s : State} {x : Snapshot} (hbusy : s.phase = .busy x) (hn : n ≤ s.turns.length)
    (hport : ∀ turn ∈ s.turns, turn ≠ .engine ∧ turn ≠ .reset) (y : Snapshot) :
    ∃ t, run n s = .next t ∧ run n (s.withSnapshot y) = .next (t.withSnapshot y) := by
  induction n generalizing s with
  | zero => exact ⟨s, rfl, rfl⟩
  | succ n ih =>
    cases hturns : s.turns with
    | nil => simp [hturns] at hn
    | cons turn rest =>
      rw [hturns] at hn hport
      obtain ⟨t, hstep, hstep', hphase, hrest⟩ := step_withSnapshot hbusy hturns (hport turn List.mem_cons_self) y
      rw [run_succ hstep, run_succ hstep']
      subst hrest
      exact ih hphase (Nat.le_of_succ_le_succ hn) fun u hu => hport u (List.mem_cons_of_mem _ hu)

/-- Settles O53: the two runs end in states that differ in the snapshot only, so in no word received. -/
theorem snapshotIsHidden : Obligations.SnapshotIsHidden := by
  intro n s t t' x y hbusy hn hport hrun hrun'
  obtain ⟨u, hu, hu'⟩ := run_withSnapshot hbusy hn hport y
  have ht : t = u := Host.Outcome.next.inj (hrun.symm.trans hu)
  have ht' : t' = u.withSnapshot y := Host.Outcome.next.inj (hrun'.symm.trans hu')
  rw [ht, ht']
  rfl

end Sys2Proof.Machine
end

