-- ==== Sys2Proof/Proofs/HostPort.lean ====
section
/-! PROOFS. spec/20_memory.md as facts about the host port: low address bits (O43), what a store puts into a buffer and what
a later read sees of it (O44 to O46), the words a write does not reach (O47), and the step of a read (O48). -/

namespace Sys2Proof.Machine

/-! ## Where the words of the map stand (R63): registers below 0x1C, buffers from 0x20 on, each from a word boundary. -/

theorem Reg.addr_le (r : Reg) : r.addr ≤ 0x18 := by cases r <;> decide

theorem Buffer.le_base (b : Buffer) : 0x20 ≤ b.base := by cases b <;> decide

theorem Buffer.base_mod (b : Buffer) : b.base % 4 = 0 := by cases b <;> rfl

theorem hostWritable_iff {b : Buffer} : b.hostWritable = true ↔ b ≠ .out := by cases b <;> decide

theorem ne_reg_addr {w : Nat} (h : 0x18 < w) (r : Reg) : w ≠ r.addr := by
  have := r.addr_le
  omega

/-- A word that has a byte in a buffer starts in that buffer, since buffers start at word boundaries. The converse fails for
the word of PK[32] alone (R65). -/
theorem bufferAt_word {c : Config} {w x : Nat} {b : Buffer} (hw : w % 4 = 0) (hlow : w ≤ x) (hhigh : x < w + 4)
    (h : bufferAt c x = some b) : bufferAt c w = some b := by
  rw [bufferAt_eq_some_iff] at h ⊢
  have := b.base_mod
  omega

/-- In a word that starts in a buffer, the bytes before the buffer's end are that buffer's, and the others are reserved. -/
theorem bufferAt_of_word {c : Config} {w x : Nat} {b : Buffer} (hw : w % 4 = 0) (hb : bufferAt c w = some b)
    (hlow : w ≤ x) (hhigh : x < w + 4) :
    bufferAt c x = if x < b.base + b.size c then some b else none := by
  split_ifs with hx
  · have := (bufferAt_eq_some_iff.1 hb).1
    exact bufferAt_eq_some_iff.2 (by omega)
  · cases hx' : bufferAt c x with
    | none => rfl
    | some b' =>
      have hsame : b' = b := Option.some.inj ((bufferAt_word hw hlow hhigh hx').symm.trans hb)
      exact absurd (hsame ▸ (bufferAt_eq_some_iff.1 hx').2) hx

/-! ## The bytes of a word that starts in a buffer. -/

/-- R62, R64: a read of a word that starts in a buffer sees the buffer's byte, and 0x00 beyond the buffer's end. -/
theorem hostReadByte_of_word {c : Config} {w x : Nat} {b : Buffer} (m : Memory) (hw : w % 4 = 0)
    (hb : bufferAt c w = some b) (hlow : w ≤ x) (hhigh : x < w + 4) :
    hostReadByte c m x = if x < b.base + b.size c then m.read x else 0 := by
  rw [hostReadByte, bufferAt_of_word hw hb hlow hhigh]
  by_cases hx : x < b.base + b.size c
  · simp only [if_pos hx]
  · simp only [if_neg hx]

/-- R62, R64: a write to a word that starts in a writable buffer stores the bytes before the buffer's end, and no other. -/
theorem read_hostWriteBytes_of_word {c : Config} {w : Nat} {b : Buffer} (m : Memory) (v : Word) (hw : w % 4 = 0)
    (hb : bufferAt c w = some b) (hout : b ≠ .out) (x : Nat) :
    (hostWriteBytes c m w v).read x =
      if w ≤ x ∧ x < w + 4 ∧ x < b.base + b.size c then byteOf v (x - w) else m.read x := by
  rw [read_hostWriteBytes]
  refine if_congr (and_congr_right fun hlow => and_congr_right fun hhigh => ?_) rfl rfl
  rw [bufferAt_of_word hw hb hlow hhigh]
  by_cases hx : x < b.base + b.size c
  · simp [hx, hostWritable_iff.2 hout]
  · simp [hx]

/-- A host access to a word that starts in a buffer goes to memory, not to a register. -/
theorem ne_reg_addr_of_bufferAt {c : Config} {w : Nat} {b : Buffer} (h : bufferAt c w = some b) : ∀ r : Reg, w ≠ r.addr := by
  have := b.le_base
  have := (bufferAt_eq_some_iff.1 h).1
  exact ne_reg_addr (by omega)

/-! ## The words a write does not reach, and those that read 0 (R64). -/

theorem hostWriteByte_ignored {c : Config} {a : Nat} (m : Memory) (v : Byte) (h : ∀ b, bufferAt c a = some b → b = .out) :
    hostWriteByte c m a v = m := by
  unfold hostWriteByte
  cases hb : bufferAt c a with
  | none => rfl
  | some b => cases h b hb; rfl

theorem hostReadByte_reserved {c : Config} {a : Nat} (m : Memory) (h : bufferAt c a = none) : hostReadByte c m a = 0 := by
  rw [hostReadByte, h]

/-- A write to a word that starts in OUT or in no buffer leaves the memory as it is. -/
theorem hostWriteBytes_ignored {c : Config} {w : Nat} (m : Memory) (v : Word) (hw : w % 4 = 0)
    (h : ∀ b, bufferAt c w = some b → b = .out) : hostWriteBytes c m w v = m := by
  have hbyte (x : Nat) (hlow : w ≤ x) (hhigh : x < w + 4) (m' : Memory) (u : Byte) : hostWriteByte c m' x u = m' :=
    hostWriteByte_ignored m' u fun b hb => h b (bufferAt_word hw hlow hhigh hb)
  simp (disch := omega) only [hostWriteBytes, hbyte]

/-- A word that starts in no buffer reads 0. -/
theorem hostReadBytes_reserved {c : Config} {w : Nat} (m : Memory) (hw : w % 4 = 0) (h : bufferAt c w = none) :
    hostReadBytes c m w = 0 := by
  have hbyte (x : Nat) (hlow : w ≤ x) (hhigh : x < w + 4) : hostReadByte c m x = 0 := by
    refine hostReadByte_reserved m (Option.eq_none_iff_forall_ne_some.2 fun b hb => ?_)
    have hsome := bufferAt_word hw hlow hhigh hb
    rw [h] at hsome
    cases hsome
  simp (disch := omega) only [hostReadBytes, hbyte]
  rfl

theorem portWrite_ignored {c : Config} {s : State} {a : Addr} (v : Word) (hreg : 0x18 < wordAddr a)
    (h : ∀ b, bufferAt c (wordAddr a) = some b → b = .out) : portWrite c s a v = s := by
  rw [portWrite_mem (ne_reg_addr hreg), hostWriteBytes_ignored _ _ (wordAddr_mod a) h]

theorem portRead_reserved {c : Config} {s : State} {a : Addr} (hreg : 0x18 < wordAddr a)
    (h : bufferAt c (wordAddr a) = none) : portRead c s a = 0 := by
  rw [portRead_mem (ne_reg_addr hreg), hostReadBytes_reserved _ (wordAddr_mod a) h]

/-- R64: the reserved ranges of the map lie outside every buffer. -/
theorem bufferAt_reserved {c : Config} {w : Nat}
    (h : w = 0x001C ∨ (0x0064 ≤ w ∧ w < 0x0080) ∨ (0x00E0 ≤ w ∧ w < 0x0100) ∨ (0x0140 ≤ w ∧ w < 0x1000) ∨
      0x1000 + c.msgMax ≤ w) : bufferAt c w = none := by
  rw [bufferAt_eq_none_iff]
  intro b
  cases b <;> simp only [base_sk, base_pk, base_sig, base_u, base_out, base_msg, size_sk, size_pk, size_sig, size_u,
    size_out, size_msg] <;> omega

/-! ## Word 0x0060 (R65). -/

theorem packWord_zeros (b : Byte) : packWord b 0 0 0 = b.setWidth 32 := by
  apply BitVec.eq_of_getLsbD_eq
  intro i hi
  rw [packWord_getLsbD, BitVec.getLsbD_setWidth]
  by_cases h : i < 8
  · simp [h, hi]
  · simp [h, BitVec.getLsbD_of_ge b i (by omega)]

/-- R65: word 0x0060 starts in PK, whose last byte is its first one. -/
theorem bufferAt_lastKeyByte (c : Config) : bufferAt c (wordAddr 0x0060) = some .pk :=
  bufferAt_eq_some_iff.2 (by rw [size_pk]; decide)

/-! ## The obligations. -/

/-- Settles O43: both accesses look at the word address only. -/
theorem lowAddressBitsIgnored : Obligations.LowAddressBitsIgnored := by
  intro c s a a' v h
  have hword : wordAddr a = wordAddr a' := by rw [wordAddr_eq, wordAddr_eq, h]
  constructor
  · rw [portRead, portRead, hword]
  · rw [portWrite, portWrite, hword]

/-- Settles O44: the write is a store of the word's bytes up to the buffer's end. -/
theorem bufferWriteStoresBytes : Obligations.BufferWriteStoresBytes := by
  intro c s a v b hout hlow hhigh
  have hb : bufferAt c (wordAddr a) = some b := bufferAt_eq_some_iff.2 ⟨hlow, hhigh⟩
  exact ⟨hostWriteBytes c s.mem (wordAddr a) v, portWrite_mem (ne_reg_addr_of_bufferAt hb),
    read_hostWriteBytes_of_word s.mem v (wordAddr_mod a) hb hout⟩

/-- Settles O45: each byte read is the byte of `v` stored at its address, and a word is the packing of its bytes. -/
theorem readReturnsLastWrite : Obligations.ReadReturnsLastWrite := by
  intro c s a v b hout hlow hhigh
  have hb : bufferAt c (wordAddr a) = some b := bufferAt_eq_some_iff.2 (by omega)
  have hreg := ne_reg_addr_of_bufferAt hb
  have hbyte (x : Nat) (hx : wordAddr a ≤ x) (hx' : x < wordAddr a + 4) :
      hostReadByte c (hostWriteBytes c s.mem (wordAddr a) v) x = byteOf v (x - wordAddr a) := by
    rw [hostReadByte_of_word _ (wordAddr_mod a) hb hx hx', if_pos (by omega),
      read_hostWriteBytes_of_word _ _ (wordAddr_mod a) hb hout, if_pos (by omega)]
  calc portRead c (portWrite c s a v) a
      = hostReadBytes c (hostWriteBytes c s.mem (wordAddr a) v) (wordAddr a) := by
        rw [portWrite_mem hreg, portRead_mem hreg]
    _ = packWord (byteOf v 0) (byteOf v 1) (byteOf v 2) (byteOf v 3) := by
        simp (disch := omega) only [hostReadBytes, hbyte, Nat.sub_self, Nat.add_sub_cancel_left]
    _ = v := packWord_byteOf v

/-- Settles O46: of the four bytes of the word, PK[32] is the only one before PK's end. -/
theorem lastKeyByteWord : Obligations.LastKeyByteWord := by
  intro c s v
  have hword : wordAddr 0x0060 = 0x60 := rfl
  have hb := bufferAt_lastKeyByte c
  have hreg := ne_reg_addr_of_bufferAt hb
  refine ⟨?_, hostWriteBytes c s.mem (wordAddr 0x0060) v, portWrite_mem hreg, fun x => ?_⟩
  · have hbyte (x : Nat) (hlow : 0x60 ≤ x) (hhigh : x < 0x64) :
        hostReadByte c s.mem x = if x < 0x61 then s.mem.read x else 0 :=
      hostReadByte_of_word s.mem rfl hb hlow hhigh
    rw [portRead_mem hreg, hword, hostReadBytes, hbyte _ (by omega) (by omega), hbyte _ (by omega) (by omega),
      hbyte _ (by omega) (by omega), hbyte _ (by omega) (by omega)]
    exact packWord_zeros _
  · rw [read_hostWriteBytes_of_word s.mem v rfl hb (by decide), hword, base_pk, size_pk]
    by_cases hx : x = 0x60
    · subst hx; rfl
    · rw [if_neg hx, if_neg (by omega)]

/-- Settles O47: STATUS and OUT_LEN are registers that ignore a write, OUT's words lie in OUT, and the reserved words in no
buffer. -/
theorem readOnlyAndReserved : Obligations.ReadOnlyAndReserved := by
  intro c s a v
  refine ⟨?readOnlyRegister, fun hout => ?out, fun hres => ?reserved⟩
  case readOnlyRegister =>
    rintro (h | h)
    · exact portWrite_reg (r := .status) h
    · exact portWrite_reg (r := .outLen) h
  case out =>
    have hb : bufferAt c (wordAddr a) = some .out := bufferAt_eq_some_iff.2 hout
    exact portWrite_ignored v (by omega) fun b h => Option.some.inj (h.symm.trans hb)
  case reserved =>
    have hnone := bufferAt_reserved hres
    have hreg : 0x18 < wordAddr a := by omega
    refine ⟨portRead_reserved hreg hnone, portWrite_ignored v hreg fun b h => ?_⟩
    rw [hnone] at h
    cases h

/-- Settles O48: the step is the read's turn, and CMD reads 0. -/
theorem readsHaveNoSideEffect : Obligations.ReadsHaveNoSideEffect := by
  intro s a rest hturns
  refine ⟨?_, portRead_reg (r := .cmd)⟩
  rw [step_read hturns, popped_of_cons hturns]
  rfl

end Sys2Proof.Machine
end

