-- ==== Sys2Proof/Proofs/Encoding.lean ====
section
/-! PROOFS. spec/30_encoding.md: a command word and its fields, the opcode map and the decoder (O1 to O5), the completion
of an illegal word (O10), and the host programs of R87 and R88 (O56, O57). -/

namespace Sys2Proof

/-! ## A word and its fields (R81) hold the same bits. -/

theorem toWord_fieldsOf (w : Word) : (fieldsOf w).toWord = w := by
  calc (fieldsOf w).toWord
      = w.extractLsb' 8 (23 + 1) ++ w.extractLsb' 0 8 :=
        congrArg (· ++ w.extractLsb' 0 8) (BitVec.extractLsb'_append_extractLsb'_eq_extractLsb' rfl)
    _ = w.extractLsb' 0 (23 + 1 + 8) := BitVec.extractLsb'_append_extractLsb'_eq_extractLsb' rfl
    _ = w := BitVec.extractLsb'_eq_self

theorem fieldsOf_toWord (f : Fields) : fieldsOf f.toWord = f := by
  obtain ⟨op, s, res⟩ := f
  have hop : (res ++ s ++ op).extractLsb' 0 8 = op := BitVec.extractLsb'_append_eq_right
  have hs : (res ++ s ++ op).extractLsb' 8 1 = s := by
    rw [BitVec.extractLsb'_append_eq_of_le (by decide)]
    exact BitVec.extractLsb'_append_eq_right
  have hres : (res ++ s ++ op).extractLsb' 9 23 = res := by
    rw [BitVec.extractLsb'_append_eq_of_le (by decide)]
    exact BitVec.extractLsb'_append_eq_left
  simp only [fieldsOf, Fields.toWord, hop, hs, hres]

theorem eq_toWord_iff {w : Word} {f : Fields} : w = f.toWord ↔ fieldsOf w = f := by
  constructor
  · rintro rfl
    exact fieldsOf_toWord f
  · rintro rfl
    exact (toWord_fieldsOf w).symm

theorem eq_encode_iff {w : Word} {i : Instr} : w = encode i ↔ fieldsOf w = i.fields := eq_toWord_iff

theorem fieldsOf_s (w : Word) : (fieldsOf w).s = BitVec.ofBool (signBitOf w) := by
  ext k hk
  obtain rfl : k = 0 := by omega
  simp [fieldsOf, signBitOf]

/-! ## The opcode map (R82): a row selects the words of its command, and no other row selects them. -/

theorem encode_clamp : encode .clamp = 0x00000001 := by decide
theorem encode_encodePub : encode .encodePub = 0x00000002 := by decide
theorem encode_decodePub : encode .decodePub = 0x00000003 := by decide
theorem encode_edFromMont_false : encode (.edFromMont false) = 0x00000004 := by decide
theorem encode_edFromMont_true : encode (.edFromMont true) = 0x00000104 := by decide
theorem encode_sign : encode .sign = 0x00000005 := by decide
theorem encode_verify : encode .verify = 0x00000006 := by decide

theorem selects_full_mask {r : OpcodeRow} {w : Word} (hmask : r.mask = 0xFFFFFFFF) (hword : r.word = encode (r.instr w)) :
    r.selects w = true ↔ w = encode (r.instr w) := by
  have hall : w &&& 0xFFFFFFFF = w := BitVec.and_allOnes
  rw [OpcodeRow.selects, hmask, hall, beq_iff_eq, hword]

/-- The mask of ED_FROM_MONT's row drops S and keeps OP and RES. -/
theorem toWord_and_sign_mask (f : Fields) : f.toWord &&& 0xFFFFFEFF = Fields.toWord { f with s := 0 } := by
  have hmask : (0xFFFFFEFF : Word) = BitVec.allOnes 23 ++ 0#1 ++ BitVec.allOnes 8 := by decide
  rw [Fields.toWord, hmask, BitVec.and_append, BitVec.and_append, BitVec.and_allOnes, BitVec.and_zero,
    BitVec.and_allOnes]
  rfl

/-- Clearing S leaves ED_FROM_MONT's word with S = 0 exactly from ED_FROM_MONT's two words. -/
theorem selects_sign_mask {w : Word} {instr : Word → Instr} :
    (OpcodeRow.mk 0x00000004 0xFFFFFEFF instr).selects w = true ↔ w = encode (.edFromMont (signBitOf w)) := by
  have hcleared : w &&& 0xFFFFFEFF = Fields.toWord { fieldsOf w with s := 0 } := by
    rw [← toWord_and_sign_mask, toWord_fieldsOf]
  have hword : (0x00000004 : Word) = (Instr.edFromMont false).fields.toWord := encode_edFromMont_false.symm
  have hs := fieldsOf_s w
  rw [OpcodeRow.selects, beq_iff_eq, hcleared, hword, eq_toWord_iff, fieldsOf_toWord, eq_encode_iff]
  generalize fieldsOf w = f at hs ⊢
  obtain ⟨op, s, res⟩ := f
  obtain rfl : s = BitVec.ofBool (signBitOf w) := hs
  simp [Instr.fields, Instr.op, Instr.signOperand]

/-- R82: a row selects a word exactly when the word is that of the command the row gives it. -/
theorem selects_iff {r : OpcodeRow} (hr : r ∈ opcodeRows) (w : Word) : r.selects w = true ↔ w = encode (r.instr w) := by
  simp only [opcodeRows, List.mem_cons, List.not_mem_nil, or_false] at hr
  rcases hr with rfl | rfl | rfl | rfl | rfl | rfl
  · exact selects_full_mask rfl encode_clamp.symm
  · exact selects_full_mask rfl encode_encodePub.symm
  · exact selects_full_mask rfl encode_decodePub.symm
  · exact selects_sign_mask
  · exact selects_full_mask rfl encode_sign.symm
  · exact selects_full_mask rfl encode_verify.symm

/-- R82: the operation codes of the six rows differ. -/
theorem rows_op_ne : opcodeRows.Pairwise fun r r' => ∀ w, (r.instr w).op ≠ (r'.instr w).op := by
  simp [opcodeRows, Instr.op]

/-- Settles O4: a selected word has the operation code of the row's command, and these differ. -/
theorem opcodeRowsDisjoint : Obligations.OpcodeRowsDisjoint := by
  refine rows_op_ne.imp_of_mem fun {r r'} hr hr' hne w hsel => hne w ?_
  have hfields : fieldsOf w = (r.instr w).fields := eq_encode_iff.1 ((selects_iff hr w).1 hsel.1)
  have hfields' : fieldsOf w = (r'.instr w).fields := eq_encode_iff.1 ((selects_iff hr' w).1 hsel.2)
  exact congrArg Fields.op (hfields.symm.trans hfields')

/-! ## The decoder (R83, R84) -/

/-- A search finds the element it is to find when no two elements of the list answer it. -/
theorem find?_eq_some_of_pairwise {α : Type} {p : α → Bool} {l : List α} {a : α}
    (hl : l.Pairwise fun b c => ¬ (p b = true ∧ p c = true)) (hmem : a ∈ l) (ha : p a = true) : l.find? p = some a := by
  induction l with
  | nil => cases hmem
  | cons b l ih =>
    obtain ⟨hhead, htail⟩ := List.pairwise_cons.1 hl
    rcases List.mem_cons.1 hmem with rfl | hmem
    · exact List.find?_cons_of_pos ha
    · rw [List.find?_cons_of_neg fun hb => hhead a hmem ⟨hb, ha⟩]
      exact ih htail hmem

/-- R83: the row that selects a word decodes it. -/
theorem decode_of_selects {r : OpcodeRow} {w : Word} (hr : r ∈ opcodeRows) (hsel : r.selects w = true) :
    decode w = .ok (r.instr w) := by
  have hfind : opcodeRows.find? (fun r => r.selects w) = some r :=
    find?_eq_some_of_pairwise (opcodeRowsDisjoint.imp fun h => h w) hr hsel
  rw [decode, hfind]

theorem exists_row_of_decode {w : Word} {i : Instr} (h : decode w = .ok i) :
    ∃ r ∈ opcodeRows, r.selects w = true ∧ r.instr w = i := by
  unfold decode at h
  split at h
  · next r hfind =>
    have hsel : r.selects w = true := List.find?_some (p := fun r : OpcodeRow => r.selects w) hfind
    exact ⟨r, List.mem_of_find?_eq_some hfind, hsel, Except.ok.inj h⟩
  · cases h

/-- R82: each command has a row, which gives the command's word the command again. -/
theorem exists_row_instr_encode (i : Instr) : ∃ r ∈ opcodeRows, r.instr (encode i) = i := by
  cases i with
  | clamp => exact ⟨opcodeRows[0], List.getElem_mem _, rfl⟩
  | encodePub => exact ⟨opcodeRows[1], List.getElem_mem _, rfl⟩
  | decodePub => exact ⟨opcodeRows[2], List.getElem_mem _, rfl⟩
  | edFromMont s => exact ⟨opcodeRows[3], List.getElem_mem _, by cases s <;> rfl⟩
  | sign => exact ⟨opcodeRows[4], List.getElem_mem _, rfl⟩
  | verify => exact ⟨opcodeRows[5], List.getElem_mem _, rfl⟩

/-- Settles O2: a decoded word was selected by a row, so it is the word of the row's command; and the row of a command
selects the command's word. -/
theorem decodeIffEncode : Obligations.DecodeIffEncode := by
  intro w i
  constructor
  · intro h
    obtain ⟨r, hr, hsel, rfl⟩ := exists_row_of_decode h
    exact (selects_iff hr w).1 hsel
  · rintro rfl
    obtain ⟨r, hr, hi⟩ := exists_row_instr_encode i
    have hsel : r.selects (encode i) = true := (selects_iff hr _).2 (congrArg encode hi.symm)
    rw [decode_of_selects hr hsel, hi]

/-- Settles O1: by O2. -/
theorem decodeOfEncode : Obligations.DecodeOfEncode := fun i => (decodeIffEncode (encode i) i).2 rfl

/-- Settles O3: the seven words are those of the encoder. -/
theorem opcodeWordsDecode : Obligations.OpcodeWordsDecode :=
  ⟨(decodeIffEncode ..).2 encode_clamp.symm, (decodeIffEncode ..).2 encode_encodePub.symm,
    (decodeIffEncode ..).2 encode_decodePub.symm, (decodeIffEncode ..).2 encode_edFromMont_false.symm,
    (decodeIffEncode ..).2 encode_edFromMont_true.symm, (decodeIffEncode ..).2 encode_sign.symm,
    (decodeIffEncode ..).2 encode_verify.symm⟩

/-! ## Which words are illegal (R84): those whose fields are no command's. -/

theorem wellFormed_fields (i : Instr) : i.fields.wellFormed = true := by
  cases i with
  | clamp => exact Laws.FieldsLegal.clamp.1
  | encodePub => exact Laws.FieldsLegal.encodePub.1
  | decodePub => exact Laws.FieldsLegal.decodePub.1
  | edFromMont s => exact (Laws.FieldsLegal.edFromMont s).1
  | sign => exact Laws.FieldsLegal.sign.1
  | verify => exact Laws.FieldsLegal.verify.1

theorem opAssigned_iff {f : Fields} :
    f.opAssigned = true ↔ f.op = 1 ∨ f.op = 2 ∨ f.op = 3 ∨ f.op = 4 ∨ f.op = 5 ∨ f.op = 6 := by
  rw [Fields.opAssigned, decide_eq_true_iff]
  bv_omega

/-- R84: fields that pass the checks are a command's: OP names it, and S is its operand or 0. -/
theorem exists_instr_of_wellFormed {f : Fields} (h : f.wellFormed = true) : ∃ i : Instr, f = i.fields := by
  obtain ⟨op, s, res⟩ := f
  simp only [Fields.wellFormed, Bool.and_eq_true, opAssigned_iff] at h
  obtain ⟨⟨hop, hs⟩, hres⟩ := h
  obtain rfl : res = 0 := beq_iff_eq.1 hres
  rcases BitVec.eq_zero_or_eq_one s with rfl | rfl
  · rcases hop with rfl | rfl | rfl | rfl | rfl | rfl
    · exact ⟨.clamp, rfl⟩
    · exact ⟨.encodePub, rfl⟩
    · exact ⟨.decodePub, rfl⟩
    · exact ⟨.edFromMont false, rfl⟩
    · exact ⟨.sign, rfl⟩
    · exact ⟨.verify, rfl⟩
  · obtain rfl : op = 4 := by simpa [Fields.signAllowed] using hs
    exact ⟨.edFromMont true, rfl⟩

/-- R84: the words that do not decode are those whose fields fail a check. -/
theorem decode_error_iff {w : Word} : (∃ e, decode w = .error e) ↔ (fieldsOf w).wellFormed ≠ true := by
  constructor
  · rintro ⟨e, he⟩ hwf
    obtain ⟨i, hi⟩ := exists_instr_of_wellFormed hwf
    rw [(decodeIffEncode w i).2 (eq_encode_iff.2 hi)] at he
    cases he
  · intro hwf
    cases hd : decode w with
    | error e => exact ⟨e, rfl⟩
    | ok i =>
      have hfields : fieldsOf w = i.fields := eq_encode_iff.1 ((decodeIffEncode w i).1 hd)
      exact absurd (wellFormed_fields i) (hfields ▸ hwf)

/-- Settles O5: a word is illegal exactly when one of the three checks on its fields fails. -/
theorem illegalWordsExactly : Obligations.IllegalWordsExactly := by
  intro w
  have hop : (fieldsOf w).opAssigned = true ↔ ¬ (w.extractLsb' 0 8 = 0 ∨ 7 ≤ (w.extractLsb' 0 8).toNat) := by
    rw [Fields.opAssigned, decide_eq_true_iff, fieldsOf]
    bv_omega
  have hsign : (fieldsOf w).signAllowed = true ↔ ¬ (w.getLsbD 8 = true ∧ w.extractLsb' 0 8 ≠ 0x04) := by
    rw [Fields.signAllowed, fieldsOf_s, fieldsOf, signBitOf]
    cases w.getLsbD 8 <;> simp
  have hres : (fieldsOf w).resClear = true ↔ w.extractLsb' 9 23 = 0 := beq_iff_eq
  rw [decode_error_iff, Fields.wellFormed, ne_eq, Bool.and_eq_true, Bool.and_eq_true, hop, hsign, hres, and_right_comm,
    not_and_or, not_and_or, not_not, not_not, or_assoc, or_assoc]

end Sys2Proof

namespace Sys2Proof.Machine

/-! ## The completion of an illegal word (R84) -/

theorem executeResult_illegal {x : Snapshot} {e : Illegal} (h : decode x.cmd = .error e) :
    executeResult x = raise .illegalCommand := by
  simp [executeResult, h]

theorem engineTurn_illegal {s : State} {x : Snapshot} {e : Illegal} (hphase : s.phase = .busy x)
    (hdecode : decode x.cmd = .error e) : ∃ t, engineTurn s = .next t ∧ Fails t 3 false ∧ CompletionFrame s t :=
  ⟨complete (raise .illegalCommand) s, by rw [engineTurn_busy hphase, executeResult_illegal hdecode],
    fails_complete_err .illegalCommand false s, frame_complete _ s⟩

/-- Settles O10: either way the engine has the turn, and it completes the word with an error. -/
theorem illegalWordCompletes : Obligations.IllegalWordCompletes := by
  intro s x e rest hphase hdecode
  refine ⟨fun hturns => ?_, fun hturns => ?_⟩
  · rw [step_nil hturns]
    exact engineTurn_illegal hphase hdecode
  · rw [step_engine hturns, popped_of_cons hturns]
    exact engineTurn_illegal hphase hdecode

/-! ## Host programs (R87, R88): the statements of the host. -/

/-- A turn put first is the one the step takes, and the list is then as it was. -/
theorem takeTurn_read (a : Addr) (s : State) : takeTurn (.read a) s = .next (readTurn Config.impl s a) :=
  step_read rfl

theorem takeTurn_write (a : Addr) (v : Word) (s : State) :
    takeTurn (.write a v) s = .next (portWrite Config.impl s a v) :=
  step_write rfl

theorem hostStep_wr {prog : List HostStmt} {h : HostRun} {a : Addr} {v : HostValue} (hst : prog[h.pc]? = some (.wr a v)) :
    h.hostStep prog = .next { h with pc := h.pc + 1, block := portWrite Config.impl h.block a (h.value v) } := by
  simp [HostRun.hostStep, hst, takeTurn_write, withBlock]

theorem hostStep_rd {prog : List HostStmt} {h : HostRun} {a : Addr} {t : Nat} (hst : prog[h.pc]? = some (.rd a t)) :
    h.hostStep prog =
      .next ⟨h.pc + 1, (t, portRead Config.impl h.block a) :: h.temps, readTurn Config.impl h.block a⟩ := by
  simp [HostRun.hostStep, hst, takeTurn_read, withBlock]

theorem hostStep_bnz {prog : List HostStmt} {h : HostRun} {t l : Nat} {mask : Word}
    (hst : prog[h.pc]? = some (.bnz t mask l)) :
    h.hostStep prog = .next { h with pc := if h.temp t &&& mask ≠ 0 then labelIndex prog l else h.pc + 1 } := by
  simp [HostRun.hostStep, hst]

@[simp] theorem temp_cons_same (pc t : Nat) (v : Word) (temps : List (Nat × Word)) (s : State) :
    HostRun.temp ⟨pc, (t, v) :: temps, s⟩ t = v := by
  simp [HostRun.temp]

theorem labelIndex_of_first {prog : List HostStmt} {k l : Nat} (hk : prog[k]? = some (.label l))
    (hfirst : ∀ j, j < k → prog[j]? ≠ some (.label l)) : labelIndex prog l = k := by
  obtain ⟨hlt, hlabel⟩ := List.getElem?_eq_some_iff.1 hk
  refine (List.findIdx_eq hlt).2 ⟨by simp [hlabel], fun j hj => ?_⟩
  have hne := hfirst j hj
  rw [List.getElem?_eq_getElem (hj.trans hlt)] at hne
  simpa using hne

/-- R39: the poll's mask picks BUSY out of the word of STATUS. -/
theorem toWord_and_one_ne_zero (st : Status) (busy : Bool) : st.toWord busy &&& 0x1 ≠ 0 ↔ busy = true := by
  have hbusy : (st.toWord busy).getLsbD 0 = busy := (toWord_bits st busy).1
  rw [show (0x1 : Word) = 1#32 from rfl, BitVec.and_one_eq_setWidth_ofBool_getLsbD, hbusy]
  cases busy <;> decide

/-- Settles O56: the read puts STATUS into the temporary the branch tests. -/
theorem pollWaitsWhileBusy : Obligations.PollWaitsWhileBusy := by
  intro prog h k t l hlabel hfirst hread hbranch hpc
  have hstatus : portRead Config.impl h.block (regAddr .status) = h.block.status.toWord h.block.phase.isBusy :=
    portRead_reg (r := .status) rfl
  rw [← hpc] at hread
  refine ⟨_, _, hostStep_rd hread, hostStep_bnz (by rw [hpc]; exact hbranch), rfl, rfl, rfl, ?_⟩
  simp only [temp_cons_same, hstatus, toWord_and_one_ne_zero, labelIndex_of_first hlabel hfirst, hpc]

/-- Settles O57: the host's write is the acceptance of the command's word. -/
theorem hostCommandStarts : Obligations.HostCommandStarts := by
  intro prog h i st hexpand hst hidle
  obtain rfl : HostStmt.wr (regAddr .cmd) (.lit (encode i)) = st := List.singleton_inj.1 hexpand
  refine ⟨_, snapshotOf h.block (encode i), hostStep_wr hst, rfl, ?_, decodeOfEncode i⟩
  have haccept : portWrite Config.impl h.block (regAddr .cmd) (encode i) = accept (encode i) h.block := by
    rw [portWrite_cmd rfl, commandWrite_idle hidle]
  exact congrArg State.phase haccept

end Sys2Proof.Machine
end

