-- ==== Sys2Proof/Proofs/KeyCodec.lean ====
section
/-! PROOFS. spec/40_keycodec.md: the clamp (O22 to O24), the wire form of a public key (O25, O26), the three commands of the
family (O11 to O15), and what a legacy key means to VERIFY (O33). -/

namespace Sys2Proof.Machine

/-! ## The bytes and bits of the clamp (R101, R104) -/

@[simp] theorem clamp_getElem_zero (x : Bytes 32) : (clamp x)[0] = x[0] &&& 0xF8 := by simp [clamp]

@[simp] theorem clamp_getElem_31 (x : Bytes 32) : (clamp x)[31] = (x[31] &&& 0x7F) ||| 0x40 := by simp [clamp]

theorem clamp_getElem_inner (x : Bytes 32) {i : Nat} (hi : i < 32) (h0 : i ≠ 0) (h31 : i ≠ 31) : (clamp x)[i] = x[i] := by
  simp [clamp, h0.symm, h31.symm]

/-- Settles O22: the two writes of the clamp, and the bytes between them. -/
theorem clampBytes : Obligations.ClampBytes := fun x =>
  ⟨clamp_getElem_zero x, fun i h0 h31 => clamp_getElem_inner x i.isLt h0 h31, clamp_getElem_31 x⟩

/-- The mask 0xF8 clears bits 0 to 2. -/
theorem getLsbD_clampLow (b : Byte) {k : Nat} (hk : k < 8) :
    (b &&& 0xF8).getLsbD k = if k < 3 then false else b.getLsbD k := by
  interval_cases k <;> simp

/-- The masks 0x7F and 0x40 clear bit 7 and set bit 6. -/
theorem getLsbD_clampHigh (b : Byte) {k : Nat} (hk : k < 8) :
    ((b &&& 0x7F) ||| 0x40).getLsbD k = if k = 6 then true else if k = 7 then false else b.getLsbD k := by
  interval_cases k <;> simp

/-- Settles O23: byte 0 holds the three cleared bits, byte 31 the bits 254 and 255, and the other bytes none of them. -/
theorem clampMultiplexer : Obligations.ClampMultiplexer := by
  intro x i k hk
  obtain ⟨i, hi⟩ := i
  simp only [Fin.getElem_fin]
  by_cases h0 : i = 0
  · subst h0
    rw [clamp_getElem_zero, getLsbD_clampLow _ hk]
    simp [show k ≠ 254 by omega, show k ≠ 255 by omega]
  by_cases h31 : i = 31
  · subst h31
    rw [clamp_getElem_31, getLsbD_clampHigh _ hk, if_neg (by omega : ¬ 8 * 31 + k < 3)]
    simp only [show 8 * 31 + k = 254 ↔ k = 6 by omega, show 8 * 31 + k = 255 ↔ k = 7 by omega]
  · rw [clamp_getElem_inner x hi h0 h31, if_neg (by omega), if_neg (by omega), if_neg (by omega)]

/-! ## The clamp's integer (R103) -/

/-- R103: every output bit is a constant or a copy of the same input bit, and both are fixed points. -/
theorem clamp_clamp (x : Bytes 32) : clamp (clamp x) = clamp x := by
  refine Vector.ext fun i hi => BitVec.eq_of_getLsbD_eq fun k hk => ?_
  have honce := clampMultiplexer x ⟨i, hi⟩ k hk
  have htwice := clampMultiplexer (clamp x) ⟨i, hi⟩ k hk
  simp only [Fin.getElem_fin] at honce htwice
  rw [htwice, honce]
  split_ifs <;> rfl

/-- R9: the bits below 8 of the integer are those of byte 0. -/
theorem leNat_mod_eight (B : Bytes 32) : leNat B.toList % 8 = B[0].toNat % 8 := by
  obtain ⟨b, bs, hB⟩ : ∃ b bs, B.toList = b :: bs := List.exists_cons_of_ne_nil (by simp)
  have hb : B[0] = b := by simp [← Vector.getElem_toList, hB]
  rw [hB, hb, leNat]
  omega

theorem toNat_clampLow_mod (b : Byte) : (b &&& 0xF8).toNat % 8 = 0 := by
  rw [BitVec.toNat_and]
  exact (Nat.and_mod_two_pow (n := 3)).trans (Nat.and_zero _)

theorem toNat_clampHigh_bounds (b : Byte) : 64 ≤ ((b &&& 0x7F) ||| 0x40).toNat ∧ ((b &&& 0x7F) ||| 0x40).toNat < 128 := by
  rw [BitVec.toNat_or, BitVec.toNat_and]
  exact ⟨Nat.right_le_or, Nat.or_lt_two_pow (n := 7) (Nat.and_lt_two_pow _ (by decide)) (by decide)⟩

/-- Settles O24: byte 0 makes the integer a multiple of 8, and byte 31, from 64 to 127, places it in `[2^254, 2^255)`. -/
theorem clampIdempotentInRange : Obligations.ClampIdempotentInRange := by
  intro x
  have hmod : leNat (clamp x).toList % 8 = 0 := by rw [leNat_mod_eight, clamp_getElem_zero, toNat_clampLow_mod]
  have hlow : leNat ((clamp x).toList.take 31) < 2 ^ 248 := by simpa using leNat_lt ((clamp x).toList.take 31)
  have hsum := leNat_bytes32 (clamp x)
  rw [clamp_getElem_31] at hsum
  obtain ⟨hge, hlt⟩ := toNat_clampHigh_bounds x[31]
  exact ⟨clamp_clamp x, hmod, by omega, by omega⟩

/-! ## `DecodePublic` (R107) and `EncodePublic` (R105) -/

theorem decodePublic_tagged {pk : Bytes 33} (h : pk[0] = 0x05) : decodePublic pk 33 = .ok (taggedU pk) false :=
  (if_pos rfl).trans (if_pos h)

theorem decodePublic_badTag {pk : Bytes 33} (h : pk[0] ≠ 0x05) : decodePublic pk 33 = .err .invalidKeyFormat :=
  (if_pos rfl).trans (if_neg h)

theorem decodePublic_legacy (pk : Bytes 33) : decodePublic pk 32 = .ok (legacyU pk) true :=
  (if_neg (by decide)).trans (if_pos rfl)

theorem decodePublic_badLength (pk : Bytes 33) {n : Half} (h32 : n ≠ 32) (h33 : n ≠ 33) :
    decodePublic pk n = .err .invalidArgument :=
  (if_neg h33).trans (if_neg h32)

/-- Settles O25, by the two lengths and the tag. -/
theorem decodePublicCases : Obligations.DecodePublicCases := by
  intro pk n
  refine ⟨?_, ?_, ?_, decodePublic_badLength pk⟩
  · rintro rfl htag
    exact decodePublic_badTag htag
  · rintro rfl htag
    exact decodePublic_tagged htag
  · rintro rfl
    exact decodePublic_legacy pk

@[simp] theorem encodePublic_getElem_zero (u : Bytes 32) : (encodePublic u)[0] = 0x05 := by simp [encodePublic, keyTag]

@[simp] theorem taggedU_encodePublic (u : Bytes 32) : taggedU (encodePublic u) = u := by
  refine Vector.ext fun i hi => ?_
  simp [taggedU, encodePublic]

@[simp] theorem legacyU_push (u : Bytes 32) (pad : Byte) : legacyU (u.push pad) = u := by
  refine Vector.ext fun i hi => ?_
  simp [legacyU]

theorem decodePublic_encodePublic (u : Bytes 32) : decodePublic (encodePublic u) 33 = .ok u false := by
  rw [decodePublic_tagged (encodePublic_getElem_zero u), taggedU_encodePublic]

theorem decodePublic_push (u : Bytes 32) (pad : Byte) : decodePublic (u.push pad) 32 = .ok u true := by
  rw [decodePublic_legacy, legacyU_push]

/-- Settles O26: the cases of O25 on the two encodings of u. -/
theorem decodePublicProperties : Obligations.DecodePublicProperties := by
  intro u pad tag pk
  refine ⟨decodePublic_badLength pk (by decide) (by decide), decodePublic_badLength pk (by decide) (by decide), ?_,
    decodePublic_push u pad, decodePublic_encodePublic u⟩
  rintro rfl htag
  exact decodePublic_badTag htag

/-! ## What a command's completion shows, from what it computes (R52) -/

theorem exec_completes {i : Instr} {s : State} {x : Snapshot} {o : List Byte} {w v : Bool} (hbusy : s.phase = .busy x)
    (hresult : resultOf i x = .ok o w v) :
    ∃ t, exec i s = .next t ∧ OutHolds t o ∧ Reports t 0 w v ∧ CompletionFrame s t :=
  ⟨complete (.ok o w v) s, by rw [exec_busy hbusy, hresult], outHolds_complete_ok o w v s, reports_complete_ok o w v s,
    frame_complete _ s⟩

theorem exec_fails {i : Instr} {s : State} {x : Snapshot} {e : ErrCode} {w : Bool} (hbusy : s.phase = .busy x)
    (hresult : resultOf i x = .err e w) : ∃ t, exec i s = .next t ∧ Fails t e.code w ∧ CompletionFrame s t :=
  ⟨complete (.err e w) s, by rw [exec_busy hbusy, hresult], fails_complete_err e w s, frame_complete _ s⟩

/-! ## CLAMP (R102) -/

/-- R101 on the bytes of the snapshot. -/
theorem clamp_sk_toList (x : Snapshot) :
    (clamp x.sk).toList = (x.mem.read 0x20 &&& 0xF8) :: (List.range 30).map (fun k => x.mem.read (0x21 + k)) ++
      [(x.mem.read 0x3F &&& 0x7F) ||| 0x40] := by
  refine List.ext_getElem (by simp) fun i hi _ => ?_
  have hlt : i < 32 := by simpa using hi
  rw [Vector.getElem_toList]
  by_cases h0 : i = 0
  · subst h0
    simp
  by_cases h31 : i = 31
  · subst h31
    simp
  · obtain ⟨j, rfl⟩ := Nat.exists_eq_succ_of_ne_zero h0
    have hj : j < 30 := by omega
    rw [clamp_getElem_inner _ hlt h0 h31]
    simp [hj, show 0x20 + (j + 1) = 0x21 + j by omega]

theorem clampCmd_ok {x : Snapshot} (h : x.skLen = 32) : clampCmd x = .ok (clamp x.sk).toList false false := if_pos h

theorem clampCmd_badLength {x : Snapshot} (h : x.skLen ≠ 32) : clampCmd x = .err .invalidArgument false := if_neg h

/-- Settles O11: the completion of the clamped key, its bytes read from the snapshot. -/
theorem clampCompletes : Obligations.ClampCompletes := by
  intro s x hbusy hlen
  rw [← clamp_sk_toList]
  exact exec_completes hbusy (clampCmd_ok hlen)

/-- Settles O12: the length is the one check of CLAMP. -/
theorem clampBadLengthFails : Obligations.ClampBadLengthFails := fun _ _ hbusy hlen =>
  exec_fails (i := .clamp) hbusy (clampCmd_badLength hlen)

/-! ## ENCODE_PUB (R106) -/

theorem encodePublic_u_toList (x : Snapshot) :
    (encodePublic x.u).toList = 0x05 :: (List.range 32).map fun k => x.mem.read (0xC0 + k) := by
  rw [encodePublic_toList, Snapshot.u, Memory.readVec_toList, base_u]

/-- Settles O13: ENCODE_PUB checks nothing, so it always completes with the tagged key. -/
theorem encodePubCompletes : Obligations.EncodePubCompletes := by
  intro s x hbusy
  rw [← encodePublic_u_toList]
  exact exec_completes (i := .encodePub) hbusy rfl

/-! ## DECODE_PUB (R108) -/

theorem decodePubCmd_ok {x : Snapshot} {u : Bytes 32} {w : Bool} (h : decodePublic x.pk x.pkLen = .ok u w) :
    decodePubCmd x = .ok u.toList w false := by
  simp [decodePubCmd, h]

theorem decodePubCmd_err {x : Snapshot} {e : ErrCode} (h : decodePublic x.pk x.pkLen = .err e) :
    decodePubCmd x = .err e false := by
  simp [decodePubCmd, h, raise]

/-- R33: the tag of the key in the snapshot. -/
theorem pk_tag (x : Snapshot) : x.pk[0] = x.mem.read 0x40 := pk_getElem x 0 (by decide)

theorem decodePublic_pk_tagged {x : Snapshot} (hlen : x.pkLen = 33) (htag : x.mem.read 0x40 = 0x05) :
    decodePublic x.pk x.pkLen = .ok (x.mem.readVec 0x41 32) false := by
  rw [hlen, decodePublic_tagged ((pk_tag x).trans htag), taggedU_pk]

theorem decodePublic_pk_badTag {x : Snapshot} (hlen : x.pkLen = 33) (htag : x.mem.read 0x40 ≠ 0x05) :
    decodePublic x.pk x.pkLen = .err .invalidKeyFormat := by
  rw [hlen, decodePublic_badTag (by rwa [pk_tag])]

theorem decodePublic_pk_legacy {x : Snapshot} (hlen : x.pkLen = 32) :
    decodePublic x.pk x.pkLen = .ok (x.mem.readVec 0x40 32) true := by
  rw [hlen, decodePublic_legacy, legacyU_pk]

/-- Settles O14: either form decodes to the 32 bytes it carries. -/
theorem decodePubCompletes : Obligations.DecodePubCompletes := by
  intro s x hbusy
  refine ⟨fun hlen htag => ?_, fun hlen => ?_⟩
  · rw [← Memory.readVec_toList]
    exact exec_completes (i := .decodePub) hbusy (decodePubCmd_ok (decodePublic_pk_tagged hlen htag))
  · rw [← Memory.readVec_toList]
    exact exec_completes (i := .decodePub) hbusy (decodePubCmd_ok (decodePublic_pk_legacy hlen))

/-- Settles O15: the error is the one the decoding answers, the length before the tag. -/
theorem decodePubErrors : Obligations.DecodePubErrors := by
  intro s x hbusy
  refine ⟨fun ⟨h32, h33⟩ => ?_, fun ⟨hlen, htag⟩ => ?_⟩
  · exact exec_fails (i := .decodePub) hbusy (decodePubCmd_err (decodePublic_badLength x.pk h32 h33))
  · exact exec_fails (i := .decodePub) hbusy (decodePubCmd_err (decodePublic_pk_badTag hlen htag))

/-! ## VERIFY past its checks (R169): the answer turns on the map of the decoded key -/

section
variable {c : Config} {x : Snapshot} {u : Bytes 32} {warn : Bool} (hmsg : x.msgLen.toNat ≤ c.msgMax)
  (hsig : x.sigLen = 64) (hkey : decodePublic x.pk x.pkLen = .ok u warn)
include hmsg hsig hkey

theorem verifyCmd_no_point (hmap : c.prim.montToEd u (signRecover x.sig).1 = none) :
    verifyCmd c x = .err .invalidKeyFormat warn := by
  simp [verifyCmd, Nat.not_lt.2 hmsg, hsig, hkey, hmap]

theorem verifyCmd_point {A : Point} (hmap : c.prim.montToEd u (signRecover x.sig).1 = some A) :
    verifyCmd c x = .ok [] warn (signatureMatches c.prim (signRecover x.sig).2 A x.msg) := by
  simp [verifyCmd, Nat.not_lt.2 hmsg, hsig, hkey, hmap]

end

/-- Settles O33: both keys decode to the same u, so the same map decides both, and the warning is all that differs. -/
theorem legacyKeyVerifiesAlike : Obligations.LegacyKeyVerifiesAlike := by
  intro c x y u pad hxlen hxpk hylen hypk hmsgLen hmsg hsigLen hsig hlen64 hmax
  have hx : decodePublic x.pk x.pkLen = .ok u true := by rw [hxlen, hxpk, decodePublic_push]
  have hy : decodePublic y.pk y.pkLen = .ok u false := by rw [hylen, hypk, decodePublic_encodePublic]
  have hymax : y.msgLen.toNat ≤ c.msgMax := hmsgLen ▸ hmax
  have hylen64 : y.sigLen = 64 := hsigLen ▸ hlen64
  cases hmap : c.prim.montToEd u (signRecover x.sig).1 with
  | none =>
    exact .inr ⟨_, verifyCmd_no_point hmax hlen64 hx hmap, verifyCmd_no_point hymax hylen64 hy (hsig ▸ hmap)⟩
  | some A =>
    refine .inl ⟨_, _, verifyCmd_point hmax hlen64 hx hmap, ?_⟩
    rw [verifyCmd_point hymax hylen64 hy (hsig ▸ hmap), hsig, hmsg]

end Sys2Proof.Machine
end

/-! PROOFS. spec/41_ed_from_mont.md: sign recovery (O27) and ED_FROM_MONT (O16). -/

namespace Sys2Proof.Machine

/-! ## Sign recovery (R120) -/

@[simp] theorem signRecover_bit (sig : Bytes 64) : (signRecover sig).1 = sig[63].getLsbD 7 := rfl

@[simp] theorem signRecover_getElem_63 (sig : Bytes 64) : (signRecover sig).2[63] = sig[63] &&& 0x7F :=
  Vector.getElem_set_self _

theorem signRecover_getElem_other (sig : Bytes 64) {i : Nat} (hi : i < 64) (h63 : i ≠ 63) :
    (signRecover sig).2[i] = sig[i] :=
  Vector.getElem_set_ne (by decide) hi h63.symm

/-- Settles O27: the bit, the byte it is cleared in, and the bytes that the one write leaves alone. -/
theorem signRecoverSplits : Obligations.SignRecoverSplits := fun sig =>
  ⟨signRecover_bit sig, signRecover_getElem_63 sig, fun i h63 => signRecover_getElem_other sig i.isLt h63⟩

/-! ## ED_FROM_MONT (R122) -/

theorem edFromMontCmd_no_point {c : Config} {sign : Bool} {x : Snapshot} (hmap : c.prim.montToEd x.u sign = none) :
    edFromMontCmd c sign x = .err .invalidKeyFormat false := by
  simp [edFromMontCmd, hmap, raise]

theorem edFromMontCmd_point {c : Config} {sign : Bool} {x : Snapshot} {P : Point}
    (hmap : c.prim.montToEd x.u sign = some P) :
    edFromMontCmd c sign x = .ok (c.prim.compress P).toList false false := by
  simp [edFromMontCmd, hmap]

/-- Settles O16: ED_FROM_MONT checks nothing but the map's answer, which decides between the point and the error. -/
theorem edFromMontCompletes : Obligations.EdFromMontCompletes := by
  intro s x sign hbusy
  have hu : x.mem.readVec 0xC0 32 = x.u := by rw [Snapshot.u, base_u]
  rw [hu]
  cases hmap : Config.impl.prim.montToEd x.u sign with
  | none =>
    obtain ⟨t, hnext, hfails, hframe⟩ := exec_fails (i := .edFromMont sign) hbusy (edFromMontCmd_no_point hmap)
    exact ⟨t, hnext, hframe, hfails⟩
  | some P =>
    obtain ⟨t, hnext, hout, hreports, hframe⟩ := exec_completes (i := .edFromMont sign) hbusy (edFromMontCmd_point hmap)
    exact ⟨t, hnext, hframe, hout, hreports⟩

end Sys2Proof.Machine

/-! PROOFS. spec/42_xeddsa_sign.md: the folded signature (O28), SIGN's two completions (O17, O18), and what SIGN depends on
(O29, O30). -/

namespace Sys2Proof.Machine

/-! ## The folded signature (R148) and its recovery (R120) -/

section
variable (R : Bytes 32) (s : Scalar) (b : Bool)

theorem foldSignature_getElem_63 : (foldSignature R s b)[63] = (enc32 s.val)[31] ||| shiftToHighBit b :=
  (Vector.getElem_set_self _).trans (congrArg (· ||| shiftToHighBit b) (Vector.getElem_append_right _ (by decide)))

theorem foldSignature_getElem_other {i : Nat} (hi : i < 64) (h63 : i ≠ 63) :
    (foldSignature R s b)[i] = (R ++ enc32 s.val : Vector Byte (32 + 32))[i] :=
  Vector.getElem_set_ne (by decide) hi h63.symm

/-- R148: the fold changes the last byte of `R ‖ enc32(s)` only. -/
theorem foldSignature_toList : (foldSignature R s b).toList =
    R.toList ++ (enc32 s.val).toList.take 31 ++ [(enc32 s.val)[31] ||| shiftToHighBit b] := by
  refine List.ext_getElem (by simp) fun i hi _ => ?_
  have hlt : i < 64 := by simpa using hi
  rw [Vector.getElem_toList]
  by_cases h63 : i = 63
  · subst h63
    rw [foldSignature_getElem_63, List.getElem_append_right (by simp)]
    simp
  · have hinit : i < (R.toList ++ (enc32 s.val).toList.take 31).length := by
      rw [List.length_append, List.length_take, Vector.length_toList, Vector.length_toList]
      omega
    rw [foldSignature_getElem_other R s b hlt h63, List.getElem_append_left hinit, Vector.getElem_append,
      List.getElem_append]
    simp

end

theorem getLsbD_shiftToHighBit (b : Bool) {k : Nat} (hk : k < 8) :
    (shiftToHighBit b).getLsbD k = (decide (k = 7) && b) := by
  cases b <;> interval_cases k <;> rfl

theorem getLsbD_mask_7F {k : Nat} (hk : k < 8) : (0x7F : Byte).getLsbD k = decide (k ≠ 7) := by
  interval_cases k <;> rfl

/-- R148: a byte below 0x20 has bit 7 free for the sign bit, and R120 takes the two apart again. -/
theorem or_shiftToHighBit_splits {e : Byte} (he : e.toNat < 0x20) (b : Bool) :
    (e ||| shiftToHighBit b).getLsbD 7 = b ∧ (e ||| shiftToHighBit b) &&& 0x7F = e := by
  have hfree : e.getLsbD 7 = false := Nat.testBit_lt_two_pow (by omega)
  refine ⟨?_, BitVec.eq_of_getLsbD_eq fun k hk => ?_⟩
  · rw [BitVec.getLsbD_or, hfree, Bool.false_or, getLsbD_shiftToHighBit b (by decide), decide_eq_true rfl, Bool.true_and]
  rw [BitVec.getLsbD_and, BitVec.getLsbD_or, getLsbD_shiftToHighBit b hk, getLsbD_mask_7F hk]
  by_cases h7 : k = 7
  · subst h7
    rw [hfree]
    simp
  · simp [h7]

/-- Settles O28: the top byte of `enc32(s)` is below 0x20, so bit 7 of byte 63 holds the sign bit alone. -/
theorem signatureSplitsBack : Obligations.SignatureSplitsBack := by
  intro R s b
  obtain ⟨hbit, hbyte⟩ := or_shiftToHighBit_splits (enc32_scalar_top s) b
  rw [← foldSignature_getElem_63 R] at hbit hbyte
  refine Prod.ext hbit (Vector.ext fun i hi => ?_)
  by_cases h63 : i = 63
  · subst h63
    rw [signRecover_getElem_63, hbyte, Vector.getElem_append_right _ (by decide)]
  · rw [signRecover_getElem_other _ hi h63, foldSignature_getElem_other R s b hi h63]

/-! ## SIGN's checks and its answer (R149) -/

theorem signCmd_ok {c : Config} {x : Snapshot} (hmsg : x.msgLen.toNat ≤ c.msgMax) (hlen : x.skLen = 32) :
    signCmd c x = .ok (xeddsaSign c x.sk x.msg).toList false false :=
  (if_neg (Nat.not_lt.2 hmsg)).trans (if_neg (not_not_intro hlen))

theorem signCmd_badLength {c : Config} {x : Snapshot} (h : c.msgMax < x.msgLen.toNat ∨ x.skLen ≠ 32) :
    signCmd c x = .err .invalidArgument false := by
  by_cases hmsg : c.msgMax < x.msgLen.toNat
  · exact if_pos hmsg
  · exact (if_neg hmsg).trans (if_pos (h.resolve_left hmsg))

/-- Settles O18: either failing check raises the same error. -/
theorem signBadLengthFails : Obligations.SignBadLengthFails := fun _ _ hbusy hbad =>
  exec_fails (i := .sign) hbusy (signCmd_badLength hbad)

/-- R144: NONCE_KEY_FORM chooses between the clamped bytes and the encoding of the reduced scalar. -/
theorem nonceKey_eq_ite (form : NonceKeyForm) (aBytes : Bytes 32) :
    nonceKey form aBytes = if form = .clamped then aBytes else enc32 (leNat aBytes.toList % groupOrder) := by
  cases form <;> rfl

/-- Settles O17: the signature is the fold of step 7 on the values of steps 1 to 6, its last byte written out. -/
theorem signCompletes : Obligations.SignCompletes := by
  intro s x hbusy hmsg hlen p msg aBytes a pub key r R h S
  have hsteps : xeddsaSign Config.impl x.sk x.msg =
      foldSignature R (reduceModOrder (r.val + h.val * a)) (highBit pub[31]) := by
    rw [xeddsaSign, nonceKey_eq_ite]
    rfl
  have hbytes : (xeddsaSign Config.impl x.sk x.msg).toList =
      R.toList ++ S.toList.take 31 ++ [S[31] ||| shiftToHighBit (highBit pub[31])] := by
    rw [hsteps, foldSignature_toList, reduceModOrder_val]
  exact hbytes ▸ exec_completes hbusy (signCmd_ok hmsg hlen)

/-! ## What SIGN depends on (R150, R152) -/

/-- R152: the steps read the private scalar in step 1 only, which clamps it. -/
theorem xeddsaSign_congr_clamp {sk sk' : Bytes 32} (h : clamp sk = clamp sk') (c : Config) (m : List Byte) :
    xeddsaSign c sk m = xeddsaSign c sk' m := by
  simp only [xeddsaSign, h]

/-- R37: the message is the first MSG_LEN bytes of MSG. -/
theorem msg_congr {x y : Snapshot} (hlen : x.msgLen = y.msgLen)
    (hmsg : ∀ k, k < x.msgLen.toNat → x.mem.read (0x1000 + k) = y.mem.read (0x1000 + k)) : x.msg = y.msg :=
  (Memory.readList_congr hmsg).trans (congrArg (fun n : Half => y.mem.readList 0x1000 n.toNat) hlen)

/-- Settles O29: the checks see the lengths, and the steps the clamp and the message. -/
theorem signSeesClampOnly : Obligations.SignSeesClampOnly := by
  intro c x y hclamp hsk hlen hmsg
  simp only [signCmd, Snapshot.msgTooLong, hsk, hlen, msg_congr hlen hmsg, xeddsaSign_congr_clamp hclamp]

/-- R52: OUT, OUT_LEN and ERR after a completion are the result's, whatever the state was. -/
theorem complete_output_congr (r : CmdResult) (s s' : State) :
    (complete r s).outLen = (complete r s').outLen ∧ (complete r s).status.err = (complete r s').status.err ∧
      ∀ i, i < 64 → (complete r s).mem.read (Buffer.out.base + i) = (complete r s').mem.read (Buffer.out.base + i) :=
  ⟨by cases r <;> simp, by cases r <;> simp, fun i hi =>
    (read_complete_out r s hi).trans (read_complete_out r s' hi).symm⟩

/-- Settles O30: equal bytes of SK clamp alike, so by O29 both runs complete with the same result. -/
theorem signReadsOnlyItsInputs : Obligations.SignReadsOnlyItsInputs := by
  intro s s' x y hx hy hsk hlen hskBytes hmsg
  have hskEq : x.sk = y.sk := Memory.readVec_congr fun i hi => hskBytes (0x20 + i) (by omega) (by omega)
  have hresult : resultOf .sign x = resultOf .sign y :=
    signSeesClampOnly Config.impl x y (congrArg clamp hskEq) hsk hlen hmsg
  exact ⟨_, _, exec_busy hx, exec_busy hy, hresult ▸ complete_output_congr (resultOf .sign x) s s'⟩

end Sys2Proof.Machine

/-! PROOFS. spec/43_xeddsa_verify.md: VERIFY's errors and completion (O20, O19), what its answer depends on (O32, O35), and
the round trip with SIGN (O31). -/

namespace Sys2Proof.Machine

/-! ## The halves of the working signature (R162, R165) -/

theorem sigR_signRecover (sig : Bytes 64) : sigR (signRecover sig).2 = sigR sig := by
  refine Vector.ext fun i hi => ?_
  simp only [sigR, Vector.getElem_ofFn]
  exact signRecover_getElem_other sig (by omega) (by omega)

theorem sigS_signRecover (sig : Bytes 64) : sigS (signRecover sig).2 = (sigS sig).set 31 (sig[63] &&& 0x7F) := by
  refine Vector.ext fun i hi => ?_
  by_cases h31 : i = 31
  · subst h31
    simp only [sigS, Vector.getElem_ofFn, Vector.getElem_set_self]
    exact signRecover_getElem_63 sig
  · rw [Vector.getElem_set_ne (by decide) hi (Ne.symm h31)]
    simp only [sigS, Vector.getElem_ofFn]
    exact signRecover_getElem_other sig (by omega) (by omega)

theorem sigR_sig (x : Snapshot) : sigR x.sig = x.mem.readVec 0x80 32 :=
  Vector.ext fun i hi => by simp [sigR]

theorem sigS_sig (x : Snapshot) : sigS x.sig = x.mem.readVec 0xA0 32 :=
  Vector.ext fun i hi => by simp [sigS, show 0x80 + (i + 32) = 0xA0 + i by omega]

theorem sigR_append (R S : Bytes 32) : sigR (R ++ S : Vector Byte (32 + 32)) = R :=
  Vector.ext fun _ hi => (Vector.getElem_ofFn _).trans (Vector.getElem_append_left hi)

theorem sigS_append (R S : Bytes 32) : sigS (R ++ S : Vector Byte (32 + 32)) = S :=
  Vector.ext fun _ hi => (Vector.getElem_ofFn _).trans (Vector.getElem_append_right _ (by omega))

/-! ## VERIFY's checks before the map (R161, R163, R187) -/

theorem verifyCmd_badLength {c : Config} {x : Snapshot} (h : c.msgMax < x.msgLen.toNat ∨ x.sigLen ≠ 64) :
    verifyCmd c x = .err .invalidArgument false := by
  by_cases hmsg : c.msgMax < x.msgLen.toNat
  · exact if_pos hmsg
  · exact (if_neg hmsg).trans (if_pos (h.resolve_left hmsg))

theorem verifyCmd_badKey {c : Config} {x : Snapshot} {e : ErrCode} (hmsg : x.msgLen.toNat ≤ c.msgMax)
    (hsig : x.sigLen = 64) (hkey : decodePublic x.pk x.pkLen = .err e) : verifyCmd c x = .err e false := by
  simp [verifyCmd, Nat.not_lt.2 hmsg, hsig, hkey, raise]

/-- Settles O20: a failing length check ends VERIFY first, and past the two checks the error is the key's. -/
theorem verifyErrorsInOrder : Obligations.VerifyErrorsInOrder := by
  intro s x hbusy
  refine ⟨fun hbad => ?_, fun ⟨hmsg, hsig, hlen, htag⟩ => ?_⟩
  · by_cases hlen : Config.impl.msgMax < x.msgLen.toNat ∨ x.sigLen ≠ 64
    · exact exec_fails (i := .verify) hbusy (verifyCmd_badLength hlen)
    · obtain ⟨h32, h33⟩ := (or_assoc.2 hbad).resolve_left hlen
      obtain ⟨hmsg, hsig⟩ := not_or.1 hlen
      exact exec_fails (i := .verify) hbusy
        (verifyCmd_badKey (Nat.not_lt.1 hmsg) (not_not.1 hsig) (decodePublic_badLength x.pk h32 h33))
  · exact exec_fails (i := .verify) hbusy (verifyCmd_badKey hmsg hsig (decodePublic_pk_badTag hlen htag))

/-! ## VERIFY's completion (R164 to R169) -/

/-- R163: either well-formed key decodes to the u it carries, with the warning of the legacy form. -/
theorem decodePublic_pk_wellFormed {x : Snapshot} (h : (x.pkLen = 33 ∧ x.mem.read 0x40 = 0x05) ∨ x.pkLen = 32) :
    decodePublic x.pk x.pkLen =
      .ok (if x.pkLen = 33 then x.mem.readVec 0x41 32 else x.mem.readVec 0x40 32) (decide (x.pkLen = 32)) := by
  obtain ⟨hlen, htag⟩ | hlen := h
  · rw [decodePublic_pk_tagged hlen htag, hlen]
    rfl
  · rw [decodePublic_pk_legacy hlen, hlen]
    rfl

/-- R164 to R168 with the machine's primitives: the equations of R22 and R25 say what s and R' are. -/
theorem impl_signatureMatches (w : Bytes 64) (A : Point) (m : List Byte) :
    signatureMatches Config.impl.prim w A m =
      decide (Config.impl.prim.compress (Config.impl.prim.add
        (Config.impl.prim.baseMul (leNat (sigS w).toList % groupOrder))
        (multiple Config.impl.prim.add (Config.impl.prim.baseMul 0) (Config.impl.prim.neg A)
          (challenge Config.impl.prim (sigR w) (Config.impl.prim.compress A) m).val)) = sigR w) := by
  simp only [signatureMatches, beq_eq_decide, impl_doubleScalarVartime, impl_scalarReduce, reduceModOrder_val]

/-- Settles O19: past the checks the map's answer decides between the error and the verdict, whose operands are read from
the snapshot. -/
theorem verifyCompletes : Obligations.VerifyCompletes := by
  intro s x hbusy hmsg hsig hwf p msg u b R S
  have hkey : decodePublic x.pk x.pkLen = .ok u (decide (x.pkLen = 32)) := decodePublic_pk_wellFormed hwf
  have hb : (signRecover x.sig).1 = b := by rw [signRecover_bit, sig_getElem]
  have hR : sigR (signRecover x.sig).2 = R := by rw [sigR_signRecover, sigR_sig]
  have hS : sigS (signRecover x.sig).2 = S := by rw [sigS_signRecover, sigS_sig, sig_getElem]
  cases hmap : p.montToEd u b with
  | none =>
    obtain ⟨t, hnext, hfails, hframe⟩ :=
      exec_fails (i := .verify) hbusy (verifyCmd_no_point hmsg hsig hkey (hb ▸ hmap))
    exact ⟨t, hnext, hframe, hfails⟩
  | some A =>
    obtain ⟨t, hnext, hout, hreports, hframe⟩ :=
      exec_completes (i := .verify) hbusy (verifyCmd_point hmsg hsig hkey (hb ▸ hmap))
    rw [impl_signatureMatches, hR, hS] at hreports
    exact ⟨t, hnext, hframe, hout, hreports⟩

/-! ## What VERIFY's answer depends on -/

/-- Decoded keys that VERIFY cannot tell apart: the same error, or the same warning and u-coordinates with the same points
(R163). -/
inductive MapsAlike (p : Prim) : DecodedKey → DecodedKey → Prop
  | err (e : ErrCode) : MapsAlike p (.err e) (.err e)
  | ok (warn : Bool) {u v : Bytes 32} (h : ∀ sign, p.montToEd u sign = p.montToEd v sign) :
      MapsAlike p (.ok u warn) (.ok v warn)

theorem MapsAlike.refl (p : Prim) (k : DecodedKey) : MapsAlike p k k := by
  cases k with
  | ok u warn => exact .ok warn fun _ => rfl
  | err e => exact .err e

/-- R169: VERIFY's answer is fixed by the two lengths of its checks, the point of its key, the sign bit and the verdict. -/
theorem verifyCmd_congr {c : Config} {x y : Snapshot} (hmsgLen : x.msgLen = y.msgLen) (hsigLen : x.sigLen = y.sigLen)
    (hkey : MapsAlike c.prim (decodePublic x.pk x.pkLen) (decodePublic y.pk y.pkLen))
    (hbit : (signRecover x.sig).1 = (signRecover y.sig).1)
    (hmatch : ∀ A, signatureMatches c.prim (signRecover x.sig).2 A x.msg =
      signatureMatches c.prim (signRecover y.sig).2 A y.msg) :
    verifyCmd c x = verifyCmd c y := by
  by_cases hbad : c.msgMax < x.msgLen.toNat ∨ x.sigLen ≠ 64
  · rw [verifyCmd_badLength hbad, verifyCmd_badLength (hmsgLen ▸ hsigLen ▸ hbad)]
  obtain ⟨hxmsg, hxsig⟩ : x.msgLen.toNat ≤ c.msgMax ∧ x.sigLen = 64 := by simpa using hbad
  have hymsg : y.msgLen.toNat ≤ c.msgMax := hmsgLen ▸ hxmsg
  have hysig : y.sigLen = 64 := hsigLen ▸ hxsig
  generalize hx : decodePublic x.pk x.pkLen = kx at hkey
  generalize hy : decodePublic y.pk y.pkLen = ky at hkey
  cases hkey with
  | err e => rw [verifyCmd_badKey hxmsg hxsig hx, verifyCmd_badKey hymsg hysig hy]
  | @ok warn u v hpoint =>
    have hsame : c.prim.montToEd u (signRecover x.sig).1 = c.prim.montToEd v (signRecover y.sig).1 := by
      rw [hpoint, hbit]
    cases hmap : c.prim.montToEd u (signRecover x.sig).1 with
    | none =>
      rw [verifyCmd_no_point hxmsg hxsig hx hmap, verifyCmd_no_point hymsg hysig hy (hsame ▸ hmap)]
    | some A =>
      rw [verifyCmd_point hxmsg hxsig hx hmap, verifyCmd_point hymsg hysig hy (hsame ▸ hmap), hmatch]

/-- Settles O32: step 5 hands on the residue of s alone, and every other input of the verdict is the same. -/
theorem verifyReducesS : Obligations.VerifyReducesS := by
  intro c x y hreduce hmsgLen hmsg hsigLen hpkLen hpk hR hbit hs
  have hsigR : sigR (signRecover x.sig).2 = sigR (signRecover y.sig).2 := by
    rw [sigR_signRecover, sigR_signRecover]
    exact congrArg Vector.ofFn (funext hR)
  have hscalar : c.prim.scalarReduce (sigS (signRecover x.sig).2) = c.prim.scalarReduce (sigS (signRecover y.sig).2) :=
    Fin.ext (by rw [hreduce, hreduce, hs])
  refine verifyCmd_congr hmsgLen hsigLen ?_ hbit fun A => ?_
  · rw [hpk, hpkLen]
    exact .refl _ _
  · simp only [signatureMatches, hsigR, hscalar, hmsg]

/-! ## The reference map under VERIFY (R174) -/

theorem taggedU_set_32 (pk : Bytes 33) (b : Byte) : taggedU (pk.set 32 b) = (taggedU pk).set 31 b :=
  Vector.ext fun i hi => by
    simp only [taggedU, Vector.getElem_ofFn, Vector.getElem_set, show 32 = i + 1 ↔ 31 = i by omega]

theorem legacyU_set_31 (pk : Bytes 33) (b : Byte) : legacyU (pk.set 31 b) = (legacyU pk).set 31 b :=
  Vector.ext fun i hi => by simp [legacyU, Vector.getElem_set]

/-- O34 for the map of the reference record. -/
theorem reference_prim_montToEd_topBit (x0 : X0Sign1) (u : Bytes 32) (sign : Bool) :
    (Reference.prim x0).montToEd (u.set 31 (u[31] ^^^ 0x80)) sign = (Reference.prim x0).montToEd u sign :=
  Reference.referenceMapIgnoresTopBit x0 u sign

theorem mapsAlike_tagged_topBit (x0 : X0Sign1) (pk : Bytes 33) :
    MapsAlike (Reference.prim x0) (decodePublic (pk.set 32 (pk[32] ^^^ 0x80)) 33) (decodePublic pk 33) := by
  have htagEq : (pk.set 32 (pk[32] ^^^ 0x80))[0] = pk[0] := Vector.getElem_set_ne _ _ (by decide)
  have hlast : pk[32] = (taggedU pk)[31] := by simp [taggedU]
  by_cases htag : pk[0] = 0x05
  · rw [decodePublic_tagged htag, decodePublic_tagged (htagEq.trans htag), taggedU_set_32, hlast]
    exact .ok _ (reference_prim_montToEd_topBit x0 (taggedU pk))
  · rw [decodePublic_badTag htag, decodePublic_badTag (by rwa [htagEq])]
    exact .err _

theorem mapsAlike_legacy_topBit (x0 : X0Sign1) (pk : Bytes 33) :
    MapsAlike (Reference.prim x0) (decodePublic (pk.set 31 (pk[31] ^^^ 0x80)) 32) (decodePublic pk 32) := by
  have hlast : pk[31] = (legacyU pk)[31] := by simp [legacyU]
  rw [decodePublic_legacy, decodePublic_legacy, legacyU_set_31, hlast]
  exact .ok _ (reference_prim_montToEd_topBit x0 (legacyU pk))

/-- Settles O35: the flipped bit is bit 255 of the decoded u in either form, which by O34 the map ignores. -/
theorem referenceVerifyIgnoresTopBit : Obligations.ReferenceVerifyIgnoresTopBit := by
  intro w f x0 x y hpkLen hmsgLen hmsg hsigLen hsig hflip
  refine verifyCmd_congr hmsgLen hsigLen ?_ (by rw [hsig]) fun A => by rw [hsig, hmsg]
  obtain ⟨hlen, hpk⟩ | ⟨hlen, hpk⟩ := hflip
  · rw [hpkLen, hlen, hpk]
    exact mapsAlike_tagged_topBit x0 x.pk
  · rw [hpkLen, hlen, hpk]
    exact mapsAlike_legacy_topBit x0 x.pk

/-! ## The round trip with SIGN (R173) -/

/-- R142 to R148: a signature is the fold of `R = r·B` and `s = r + h·a` for the nonce r of step 3. -/
theorem exists_nonce_xeddsaSign (c : Config) (sk : Bytes 32) (m : List Byte) :
    let a := leNat (clamp sk).toList
    let pub := c.prim.compress (c.prim.baseMul a)
    ∃ r : Scalar,
      let R := c.prim.compress (c.prim.baseMul r.val)
      xeddsaSign c sk m = foldSignature R (c.prim.scalarMulAdd r (challenge c.prim R pub m) a) (highBit pub[31]) :=
  ⟨_, rfl⟩

/-- R22: an encoded residue is what reduction gives back. -/
theorem SignatureLaws.reduce_enc32 {p : Prim} (laws : SignatureLaws p) (s : Scalar) : p.scalarReduce (enc32 s.val) = s := by
  have hlt : s.val < 2 ^ 256 := Nat.lt_trans s.isLt (by norm_num)
  refine Fin.ext ?_
  rw [laws.reduce, leNat_enc32 hlt, Nat.mod_eq_of_lt s.isLt]

/-- R173: with the challenge h of the same strings, `s·B − h·A = (r + h·a)·B − h·a·B = r·B`. -/
theorem SignatureLaws.signatureMatches_response {p : Prim} (laws : SignatureLaws p) (r : Scalar) (a : Nat) (m : List Byte) :
    let R := p.compress (p.baseMul r.val)
    let h := challenge p R (p.compress (p.baseMul a)) m
    signatureMatches p (R ++ enc32 (p.scalarMulAdd r h a).val : Vector Byte (32 + 32)) (p.baseMul a) m = true := by
  simp only [signatureMatches, sigR_append, sigS_append, laws.reduce_enc32, laws.cancel, beq_self_eq_true]

/-- Settles O31: sign recovery undoes the fold (O28), the sign bit picks SIGN's public point, and the verdict is the
cancellation of R173. -/
theorem signThenVerifyAccepts : Obligations.SignThenVerifyAccepts := by
  intro c x y laws hmsgMax hskLen hmsg hmsgLen hsigLen hpkLen ⟨u, hpk, hmatches⟩ hsign
  have hsig : y.sig = xeddsaSign c x.sk x.msg := by
    rw [signCmd_ok hmsgMax hskLen] at hsign
    exact (Vector.toList_inj.1 (CmdResult.ok.inj hsign).1).symm
  obtain ⟨r, hfold⟩ := exists_nonce_xeddsaSign c x.sk x.msg
  have hsplit := congrArg signRecover (hsig.trans hfold)
  rw [signatureSplitsBack] at hsplit
  have hkey : decodePublic y.pk y.pkLen = .ok u false := by rw [hpkLen, hpk, decodePublic_encodePublic]
  have hmap : c.prim.montToEd u (signRecover y.sig).1 = some (c.prim.baseMul (leNat (clamp x.sk).toList)) := by
    rw [hsplit]
    exact hmatches
  rw [verifyCmd_point (hmsgLen ▸ hmsgMax) hsigLen hkey hmap, hsplit, hmsg, laws.signatureMatches_response]

end Sys2Proof.Machine

/-! PROOFS. spec/70_reset_and_hazards.md: reset (O38) and a command right after it (O21), the completion of a BUSY block (O55),
and that it commutes with the host's data accesses (O54). -/

namespace Sys2Proof.Machine

/-! ## The steps of a reset and of an engine that has the turn while BUSY. -/

theorem step_reset {s : State} {rest : List Turn} (h : s.turns = .reset :: rest) :
    step s = .next (resetTurn s.popped) := by simp [step, h, popped_of_cons h]

/-- R52, R218: a BUSY block whose engine has the turn completes. -/
theorem step_of_engineHasTurn {s : State} {x : Snapshot} (hbusy : s.phase = .busy x) (hturn : s.engineHasTurn) :
    step s = .next (complete (executeResult x) s.popped) := by
  rcases hturn with hnone | hengine
  · have hnil := List.head?_eq_none_iff.1 hnone
    rw [step_nil hnil, popped_of_nil hnil, engineTurn_busy hbusy]
  · obtain ⟨rest, hcons⟩ := List.head?_eq_some_iff.1 hengine
    rw [step_engine hcons, engineTurn_busy (s := s.popped) hbusy]

theorem run_one {s t : State} (h : step s = .next t) : run 1 s = .next t := run_succ h

/-- Settles O38: the step is the reset's turn. -/
theorem resetTurnRestores : Obligations.ResetTurnRestores := by
  intro s rest hturns
  rw [step_reset hturns, popped_of_cons hturns]
  rfl

/-! ## A command on the lengths of reset (R213). -/

/-- R213: with every length 0, a command that checks a length raises InvalidArgument. -/
theorem resultOf_zero_lengths {i : Instr} {x : Snapshot} (hi : i = .clamp ∨ i = .decodePub ∨ i = .sign ∨ i = .verify)
    (hsk : x.skLen = 0) (hpk : x.pkLen = 0) (hsig : x.sigLen = 0) : resultOf i x = .err .invalidArgument false := by
  rcases hi with rfl | rfl | rfl | rfl
  · exact clampCmd_badLength (by rw [hsk]; decide)
  · exact decodePubCmd_err (decodePublic_badLength x.pk (by rw [hpk]; decide) (by rw [hpk]; decide))
  · exact signCmd_badLength (.inr (by rw [hsk]; decide))
  · exact verifyCmd_badLength (.inr (by rw [hsig]; decide))

/-- Settles O21: the acceptance snapshots the lengths of reset (O39), and the engine's turn completes with the error of the
command's length check. -/
theorem afterResetLengthsFail : Obligations.AfterResetLengthsFail := by
  intro i hi
  obtain ⟨x, s, haccept, hbusy, hcmd, hsk, hpk, hsig, -, -, rfl⟩ :=
    acceptanceSnapshots { State.reset with turns := [.write 0 (encode i), .engine] } 0 (encode i) [.engine] rfl rfl rfl
  have hresult : executeResult x = .err .invalidArgument false := by
    simp only [executeResult, hcmd, decodeOfEncode i, resultOf_zero_lengths hi hsk hpk hsig]
  have hcomplete := step_of_engineHasTurn hbusy (.inr rfl)
  rw [hresult] at hcomplete
  exact ⟨_, (run_succ haccept).trans (run_one hcomplete), fails_complete_err .invalidArgument false _⟩

/-! ## A BUSY block completes (R218). -/

/-- R52: an engine that has the turn completes in one step, so within any bound the pending turns give. -/
theorem completes_of_engineHasTurn {s : State} {x : Snapshot} (hbusy : s.phase = .busy x) (hturn : s.engineHasTurn) (k : Nat) :
    ∃ n t, n ≤ k + 1 ∧ run n s = .next t ∧ t.phase = .idle ∧ t.status.done = true :=
  ⟨1, _, by omega, run_one (step_of_engineHasTurn hbusy hturn), complete_phase .., complete_done ..⟩

/-- Settles O55, by induction on the pending turns: the engine's turn completes, and a port turn leaves the block BUSY with
one turn less (`step_withSnapshot`, with its own snapshot). -/
theorem busyBlockCompletes : Obligations.BusyBlockCompletes := by
  intro s x hbusy hreset
  induction hturns : s.turns generalizing s with
  | nil => exact completes_of_engineHasTurn hbusy (.inl (by rw [hturns]; rfl)) _
  | cons turn rest ih =>
    by_cases hengine : turn = .engine
    · exact completes_of_engineHasTurn hbusy (.inr (by rw [hturns, hengine]; rfl)) _
    · rw [hturns] at hreset
      obtain ⟨u, hstep, -, hbusyU, hrest⟩ :=
        step_withSnapshot hbusy hturns ⟨hengine, hreset turn List.mem_cons_self⟩ x
      obtain ⟨n, t, hn, hrun, hdone⟩ :=
        ih u hbusyU (hrest ▸ fun other h => hreset other (List.mem_cons_of_mem _ h)) hrest
      exact ⟨n + 1, t, Nat.succ_le_succ hn, (run_succ hstep).trans hrun, hdone⟩

/-! ## Completion and data accesses commute (R71, R216): a data access reads and writes nothing of the snapshot, and writes
nothing that a completion writes. -/

/-! The state of the block that R30 lists, without the model's own two fields. -/

def State.architectural (s : State) : State := { s with turns := [], replies := [] }

theorem withoutReplies_eq_of_architectural {s t : State} (h : s.architectural = t.architectural) (hturns : s.turns = t.turns) :
    s.withoutReplies = t.withoutReplies := by
  have hs (u : State) : u.withoutReplies = { u.architectural with turns := u.turns } := rfl
  rw [hs, hs, h, hturns]

theorem architectural_popped (s : State) : s.popped.architectural = s.architectural := rfl

theorem architectural_readTurn (c : Config) (s : State) (a : Addr) :
    (readTurn c s a).architectural = s.architectural := rfl

theorem architectural_complete (r : CmdResult) (s : State) : (complete r s).architectural = complete r s.architectural := by
  cases r <;> simp only [complete, State.architectural]

theorem architectural_commandWrite (v : Word) (s : State) :
    (commandWrite v s).architectural = commandWrite v s.architectural := by
  cases hphase : s.phase with
  | idle => rw [commandWrite_idle hphase, commandWrite_idle (s := s.architectural) hphase]; rfl
  | busy x => rw [commandWrite_busy hphase, commandWrite_busy (s := s.architectural) hphase]; rfl

theorem architectural_portWrite (c : Config) (s : State) (a : Addr) (v : Word) :
    (portWrite c s a v).architectural = portWrite c s.architectural a v := by
  unfold portWrite
  cases regAt (wordAddr a) with
  | none => rfl
  | some r =>
    cases r with
    | cmd => exact architectural_commandWrite v s
    | _ => rfl

/-- R64: a store of 64 bytes into OUT and a host write commute, since no host write reaches OUT. -/
theorem hostWriteBytes_writeBytes_out (c : Config) {m : Memory} (hm : m.wf) (w : Nat) (v : Word) {bs : List Byte}
    (hlen : bs.length = 64) :
    hostWriteBytes c (m.writeBytes Buffer.out.base bs) w v = (hostWriteBytes c m w v).writeBytes Buffer.out.base bs := by
  refine Memory.ext_of_wf (wf_hostWriteBytes _ _ (Memory.wf_writeBytes _ _ hm))
    (Memory.wf_writeBytes _ _ (wf_hostWriteBytes _ _ hm)) fun a => ?_
  rw [Memory.read_writeBytes, base_out, hlen]
  by_cases hout : 0x100 ≤ a ∧ a < 0x140
  · rw [if_pos hout, read_hostWriteBytes_out _ _ _ _ hout, Memory.read_writeBytes, hlen, if_pos hout]
  · rw [if_neg hout, read_hostWriteBytes, read_hostWriteBytes, Memory.read_writeBytes, hlen, if_neg hout]

theorem portWrite_complete (c : Config) (r : CmdResult) {s : State} (hwf : s.mem.wf) {a : Addr} (v : Word)
    (hdata : wordAddr a ≠ 0) : portWrite c (complete r s) a v = complete r (portWrite c s a v) := by
  unfold portWrite
  cases hreg : regAt (wordAddr a) with
  | none => cases r <;> simp only [complete, hostWriteBytes_writeBytes_out c hwf _ _ (outBytes_length _)]
  | some reg =>
    cases reg with
    | cmd => exact absurd (regAt_eq_some_iff.1 hreg) hdata
    | _ => cases r <;> simp only [writeReg, complete]

/-- `s'` is `s` with the command of the snapshot `x` already completed, whatever turns are pending in either. -/
def CompletedAlready (x : Snapshot) (s s' : State) : Prop :=
  s'.architectural = (complete (executeResult x) s).architectural

theorem CompletedAlready.portWrite {x : Snapshot} {s s' : State} (h : CompletedAlready x s s') (c : Config) (hwf : s.mem.wf)
    {a : Addr} (v : Word) (hdata : wordAddr a ≠ 0) : CompletedAlready x (portWrite c s a v) (portWrite c s' a v) := by
  unfold CompletedAlready at h ⊢
  rw [architectural_portWrite, h, ← architectural_portWrite, portWrite_complete c _ hwf v hdata]

theorem CompletedAlready.congr {x : Snapshot} {s s' t t' : State} (h : CompletedAlready x s s')
    (hs : t.architectural = s.architectural) (hs' : t'.architectural = s'.architectural) : CompletedAlready x t t' := by
  unfold CompletedAlready at h ⊢
  rw [hs', h, architectural_complete, architectural_complete, hs]

/-- One data access on a BUSY block and on the completed one: the one stays BUSY, and the other stays its completion. -/
theorem step_dataAccess {x : Snapshot} {s s' : State} {turn : Turn} {rest rest' : List Turn} (hdata : turn.isDataAccess = true)
    (hbusy : s.phase = .busy x) (hwf : s.mem.wf) (hdone : CompletedAlready x s s') (hturns : s.turns = turn :: rest)
    (hturns' : s'.turns = turn :: rest') :
    ∃ t t', step s = .next t ∧ step s' = .next t' ∧ t.phase = .busy x ∧ t.mem.wf ∧ CompletedAlready x t t' ∧
      t.turns = rest ∧ t'.turns = rest' := by
  have hrest : s.popped.turns = rest := by rw [popped_turns, hturns, List.tail_cons]
  have hrest' : s'.popped.turns = rest' := by rw [popped_turns, hturns', List.tail_cons]
  have hpopped : CompletedAlready x s.popped s'.popped := hdone.congr (architectural_popped s) (architectural_popped s')
  cases turn with
  | read a =>
    exact ⟨_, _, step_read hturns, step_read hturns', hbusy, hwf,
      hpopped.congr (architectural_readTurn ..) (architectural_readTurn ..), hrest, hrest'⟩
  | write a v =>
    have hstore : wordAddr a ≠ 0 := by simpa [Turn.isDataAccess] using hdata
    exact ⟨_, _, step_write hturns, step_write hturns', portWrite_phase_busy (s := s.popped) hbusy a v,
      wf_portWrite (s := s.popped) a v hwf, hpopped.portWrite Config.impl (s := s.popped) hwf v hstore,
      (portWrite_turns ..).trans hrest, (portWrite_turns ..).trans hrest'⟩
  | engine => cases hdata
  | reset => cases hdata

/-- Over data accesses, the BUSY block that completes after them meets the block that has completed before them. -/
theorem run_dataAccesses {x : Snapshot} {ts : List Turn} (hdata : ∀ turn ∈ ts, turn.isDataAccess = true) {s s' : State}
    (hbusy : s.phase = .busy x) (hwf : s.mem.wf) (hdone : CompletedAlready x s s') (hturns : s.turns = ts ++ [.engine])
    (hturns' : s'.turns = ts) :
    ∃ t t', run (ts.length + 1) s = .next t ∧ run ts.length s' = .next t' ∧ t.withoutReplies = t'.withoutReplies := by
  induction ts generalizing s s' with
  | nil =>
    have hcomplete := step_of_engineHasTurn hbusy (.inr (by rw [hturns]; rfl))
    refine ⟨_, s', run_one hcomplete, rfl, withoutReplies_eq_of_architectural ?_ ?_⟩
    · exact (hdone.congr (architectural_popped s) rfl).symm
    · rw [complete_turns, popped_turns, hturns, hturns']
      rfl
  | cons turn ts ih =>
    obtain ⟨u, u', hstep, hstep', hbusyU, hwfU, hdoneU, hrest, hrest'⟩ :=
      step_dataAccess (hdata turn List.mem_cons_self) hbusy hwf hdone hturns hturns'
    obtain ⟨t, t', hrun, hrun', hsame⟩ :=
      ih (fun other h => hdata other (List.mem_cons_of_mem _ h)) hbusyU hwfU hdoneU hrest hrest'
    exact ⟨t, t', (run_succ hstep).trans hrun, (run_succ hstep').trans hrun', hsame⟩

/-- Settles O54: completing first makes the one block the completion of the other, which every data access keeps. -/
theorem resultIndependentOfLatency : Obligations.ResultIndependentOfLatency := by
  intro s x ts hbusy hwf hdata
  have hfirst := step_of_engineHasTurn (s := { s with turns := .engine :: ts }) hbusy (.inr rfl)
  have hdone : CompletedAlready x { s with turns := ts ++ [.engine] }
      (complete (executeResult x) { s with turns := ts }) := by
    rw [CompletedAlready, architectural_complete, architectural_complete]
    rfl
  obtain ⟨t, t', hrun, hrun', hsame⟩ :=
    run_dataAccesses hdata (s := { s with turns := ts ++ [.engine] }) hbusy hwf hdone rfl (complete_turns ..)
  exact ⟨t, t', hrun, (run_succ hfirst).trans hrun', hsame⟩

end Sys2Proof.Machine
